-- ==== Sys2Proof/Word.lean ====
section
/-! DEFINITION. The byte, the only word the block has (spec/00_scope.md R8). -/

namespace Sys2Proof

/-- A byte: 8 bits, numbered 7 (weight 128) down to 0 (weight 1) (R8). -/
abbrev Byte := BitVec 8

end Sys2Proof
end

