-- ==== Sys2Proof/Config.lean ====
section
/-! DEFINITION. The parameters the spec leaves open (spec/00_scope.md R6, spec/92_eei_decisions.md) and
the free values: the contents of registers after a reset or an acknowledgement (spec/10_state.md R32). -/

namespace Sys2Proof

/-- `W_BITS`, the width in bits of the request field `width`; the spec's default (R6). -/
def Config.wBits : Nat := 16

/-- `LEN_BITS`, the width in bits of `len`, `height`, `height_out`, `out_len` and of every byte
offset; the spec's default (R6). -/
def Config.lenBits : Nat := 32

/-- `XH_COMPUTED`: whether the header byte xH is computed or is the constant 0; the spec's default is
`false` (R6, R68, U1). Log entry 5. -/
def Config.xhComputed : Bool := false

/-- The registers that hold no specified value after a reset or an acknowledgement (R32, U13). -/
inductive FreeReg where
  | op | width | len | height | acc | b | p | h | npix | idx | k | status | heightOut | outLen
  deriving DecidableEq, Repr

/-- What register `r` holds after the `n`-th return to IDLE: unspecified (R32, R150, R180), so a
constant with no body: no proof can rest on its value. Log entry 3. -/
opaque Config.freeValue (n : Nat) (r : FreeReg) : Nat

end Sys2Proof
end

