-- ==== Sys2Proof/Syntax.lean ====
section
/-! DEFINITION. The instructions of spec/opcode_table.json, one constructor a row, and the four formats
they are encoded in (spec/30_encoding.md R60). -/

namespace Sys2Proof

/-- A request descriptor, the record of four fields of format REQ (R26, R60). Only the values of `op`
are encoded; the other three are fields of the record. -/
structure Request where
  op     : BitVec 2
  width  : Nat
  len    : Nat
  height : Nat
  deriving DecidableEq, Repr

/-- An encoded instruction: its format (R60) and, for the three byte formats, its bytes in stream or
memory order. -/
inductive Encoded where
  | req    (r : Request)
  | pixel  (bytes : List Byte)
  | packed (bytes : List Byte)
  | cmd    (bytes : List Byte)
  deriving DecidableEq, Repr

/-- The instructions. The first four are the operations of format REQ (R63), `thresh` is one pixel
(R90), `pack` one group of eight contributions (R100), the last four are the emitted printer
commands (R111 to R114). -/
inductive Instr where
  | rasterize   (width len height : Nat)
  | encode      (width len height : Nat)
  | print       (width len height : Nat)
  | reservedOp3 (width len height : Nat)
  | thresh      (red green blue alpha : Byte)
  | pack        (k0 k1 k2 k3 k4 k5 k6 k7 : Bool)
  | init
  | stdmode
  | lf
  | raster      (width height : Nat) (bitmap : List Byte)
  deriving DecidableEq, Repr

end Sys2Proof
end

