-- ==== Sys2Proof/WellFormed.lean ====
section
/-! DEFINITION. Which requests fit their fields and which instructions are well formed
(spec/00_scope.md R6, spec/10_state.md R26, spec/30_encoding.md R73). -/

namespace Sys2Proof

/-- The request fits fields of `w` and `l` bits and its result's length fits too: the condition R6
puts on an expressible request. -/
def Request.fitsIn (w l : Nat) (r : Request) : Bool :=
  decide (r.width < 2 ^ w) && decide (16 + r.len < 2 ^ l) && decide (r.height < 2 ^ l)

/-- The request fits the fields of the configured widths (R6). -/
def Request.fits (r : Request) : Bool := r.fitsIn Config.wBits Config.lenBits

/-- The request may be presented in an admitted run: it fits, and its operation is not the reserved
one (R135). -/
def Request.admitted (r : Request) : Bool := r.fits && decide (r.op ≠ 3)

/-- The number of byte-columns the header can state: one size byte, or two when xH is computed
(R69). -/
def Config.byteColumnLimit : Nat := if Config.xhComputed then 65536 else 256

/-- Well-formed instructions. A request fits its fields (R6); a RASTER command is one whose header
determines its operands (R73): the width a multiple of 8 the size bytes can state, the height below
65536, the payload as long as the two say. The other forms have no illegal operand (R61, R62). -/
def Instr.wellFormed : Instr → Bool
  | .rasterize width len height   => Request.fits ⟨0, width, len, height⟩
  | .encode width len height      => Request.fits ⟨1, width, len, height⟩
  | .print width len height       => Request.fits ⟨2, width, len, height⟩
  | .reservedOp3 width len height => Request.fits ⟨3, width, len, height⟩
  | .thresh _ _ _ _               => true
  | .pack _ _ _ _ _ _ _ _         => true
  | .init                         => true
  | .stdmode                      => true
  | .lf                           => true
  | .raster width height bitmap   =>
    decide (width % 8 = 0) && decide (width / 8 < Config.byteColumnLimit) &&
      decide (height < 65536) && decide (bitmap.length = width / 8 * height)

end Sys2Proof
end

