-- ==== Sys2Proof/Decode.lean ====
section
/-! DEFINITION. The encodings of spec/30_encoding.md: the constant command bytes, the size bytes of the
raster header, a total decoder for each format, the reader of a whole command stream, the encoder, and
the words of spec/opcode_table.json. -/

namespace Sys2Proof

/-- `n & 0xFF` as a byte (R9). -/
def lowByte (n : Nat) : Byte := BitVec.ofNat 8 n

/-- INIT (R64). -/
def initBytes : List Byte := [0x1B, 0x40, 0x0A]

/-- STDMODE (R65). -/
def stdmodeBytes : List Byte := [0x1B, 0x53, 0x0A]

/-- LF (R66). -/
def lfBytes : List Byte := [0x0A]

/-- The three prefix bytes and the mode byte of RASTER (R67). -/
def rasterTag : List Byte := [0x1D, 0x76, 0x30, 0x30]

/-- The header byte xH, with the parameter XH_COMPUTED as an argument (R68). -/
def xHigh (xhComputed : Bool) (width : Nat) : Byte :=
  if xhComputed then lowByte (width >>> 11) else 0

/-- The four size bytes xL xH yL yH (R68). -/
def sizeBytes (xhComputed : Bool) (width height : Nat) : List Byte :=
  [lowByte (width >>> 3), xHigh xhComputed width, lowByte height, lowByte (height >>> 8)]

/-- `HEADER(width, height)`, the eight header bytes of RASTER (R115). -/
def headerBytes (xhComputed : Bool) (width height : Nat) : List Byte :=
  rasterTag ++ sizeBytes xhComputed width height

/-- Why a word is no encoding of an instruction. -/
inductive DecodeError where
  | pixelLength      -- a pixel is exactly four bytes (R61)
  | packedLength     -- a packed group is exactly one byte (R62)
  | unknownCommand   -- the bytes begin with none of the four commands (R74)
  | rasterSizesShort -- the stream ends inside the size bytes (R67)
  | rasterHighByte   -- xH is not 0 although it is the constant 0 (R67, R74)
  | payloadShort     -- fewer payload bytes than the header states (R72)
  | trailingBytes    -- bytes are left after one command
  deriving DecidableEq, Repr

/-- Decode format REQ: only `op` is decoded (R63, R74). -/
def decodeRequest (r : Request) : Instr :=
  if r.op = 0 then .rasterize r.width r.len r.height
  else if r.op = 1 then .encode r.width r.len r.height
  else if r.op = 2 then .print r.width r.len r.height
  else .reservedOp3 r.width r.len r.height

/-- Decode format PIXEL: red, green, blue, alpha by increasing offset (R61). -/
def decodePixel : List Byte → Except DecodeError Instr
  | [red, green, blue, alpha] => .ok (.thresh red green blue alpha)
  | _                         => .error .pixelLength

/-- Decode format PACKED: bit 7 is the contribution of the first pixel (R62). -/
def decodePacked : List Byte → Except DecodeError Instr
  | [x] => .ok (.pack (x.getLsbD 7) (x.getLsbD 6) (x.getLsbD 5) (x.getLsbD 4)
      (x.getLsbD 3) (x.getLsbD 2) (x.getLsbD 1) (x.getLsbD 0))
  | _   => .error .packedLength

/-- Decode what follows the tag of a RASTER: the size bytes give the number of payload bytes, which
are raw (R72, R73). Answers the instruction and the bytes after it. -/
def decodeRaster : List Byte → Except DecodeError (Instr × List Byte)
  | xL :: xH :: yL :: yH :: rest =>
    let columns := xL.toNat + 256 * xH.toNat
    let height := yL.toNat + 256 * yH.toNat
    if Config.xhComputed = false ∧ xH ≠ 0 then .error .rasterHighByte
    else if rest.length < columns * height then .error .payloadShort
    else .ok (.raster (8 * columns) height (rest.take (columns * height)),
      rest.drop (columns * height))
  | _ => .error .rasterSizesShort

/-- Decode the first command of a stream (R64 to R67) and answer what follows it. -/
def decodeCommand (bytes : List Byte) : Except DecodeError (Instr × List Byte) :=
  if bytes.take 3 = initBytes then .ok (.init, bytes.drop 3)
  else if bytes.take 3 = stdmodeBytes then .ok (.stdmode, bytes.drop 3)
  else if bytes.take 1 = lfBytes then .ok (.lf, bytes.drop 1)
  else if bytes.take 4 = rasterTag then decodeRaster (bytes.drop 4)
  else .error .unknownCommand

/-- Read a stream of at most `fuel` commands back (R72, R73). -/
def decodeStream : Nat → List Byte → Except DecodeError (List Instr)
  | _, [] => .ok []
  | 0, _ :: _ => .error .trailingBytes
  | fuel + 1, bytes =>
    match decodeCommand bytes with
    | .error e => .error e
    | .ok (i, rest) =>
      match decodeStream fuel rest with
      | .error e => .error e
      | .ok is => .ok (i :: is)

/-- The decoder: total, rejecting by name (R60). -/
def decode : Encoded → Except DecodeError Instr
  | .req r        => .ok (decodeRequest r)
  | .pixel bytes  => decodePixel bytes
  | .packed bytes => decodePacked bytes
  | .cmd bytes    =>
    match decodeCommand bytes with
    | .error e         => .error e
    | .ok (i, [])      => .ok i
    | .ok (_, _ :: _)  => .error .trailingBytes

/-- The encoder, from the same tables. -/
def encode : Instr → Encoded
  | .rasterize width len height   => .req ⟨0, width, len, height⟩
  | .encode width len height      => .req ⟨1, width, len, height⟩
  | .print width len height       => .req ⟨2, width, len, height⟩
  | .reservedOp3 width len height => .req ⟨3, width, len, height⟩
  | .thresh red green blue alpha  => .pixel [red, green, blue, alpha]
  | .pack k0 k1 k2 k3 k4 k5 k6 k7 =>
    .packed [BitVec.ofBoolListBE [k0, k1, k2, k3, k4, k5, k6, k7]]
  | .init                         => .cmd initBytes
  | .stdmode                      => .cmd stdmodeBytes
  | .lf                           => .cmd lfBytes
  | .raster width height bitmap   =>
    .cmd (headerBytes Config.xhComputed width height ++ bitmap)

/-- The `n` bytes of `w`, the most significant first: the byte order of the multi-byte rows of
spec/opcode_table.json (their "bit_order"). -/
def bytesOfWord : Nat → Nat → List Byte
  | 0, _     => []
  | n + 1, w => lowByte (w >>> (8 * n)) :: bytesOfWord n w

/-- How many payload bytes the size bytes of a RASTER header state. -/
def payloadLength (bytes : List Byte) : Nat :=
  match bytes.drop 4 with
  | xL :: xH :: yL :: yH :: _ => (xL.toNat + 256 * xH.toNat) * (yL.toNat + 256 * yH.toNat)
  | _ => 0

/-- The encoded instruction a word of the opcode table stands for. The table's formats share their
word values, so a row's size chooses the format and, among the rows of one byte, the row with the
most fixed bits is taken first: the two-bit `op` codes, then LF, then PACKED. Fields that have no
bits in the table are 0. Log entry 9. -/
def encodedOfTableWord (nbits w : Nat) : Encoded :=
  if nbits = 8 then
    if w < 4 then .req ⟨BitVec.ofNat 2 w, 0, 0, 0⟩
    else if w = 0x0A then .cmd (bytesOfWord 1 w)
    else .packed (bytesOfWord 1 w)
  else if nbits = 32 then .pixel (bytesOfWord 4 w)
  else
    let bytes := bytesOfWord (nbits / 8) w
    if bytes.take 4 = rasterTag then .cmd (bytes ++ List.replicate (payloadLength bytes) 0)
    else .cmd bytes

/-- The instruction the decoder reads from a word of spec/opcode_table.json. -/
def decodeTableWord (nbits w : Nat) : Option Instr :=
  match decode (encodedOfTableWord nbits w) with
  | .ok i    => some i
  | .error _ => none

end Sys2Proof
end

