-- ==== Sys2Proof/Machine/State.lean ====
section
/-! DEFINITION. The state of one instance of the block (spec/10_state.md R20), the data spaces
(spec/20_memory.md R40), the host's pending moves (spec/43_pipeline_and_step_machine.md R132), the
reasons to stop, and the state after reset (R32, R180). -/

namespace Sys2Proof.Machine

/-- A byte space: cells with strictly rising offsets; an offset not listed holds no byte (log entry 2). -/
abbrev Memory := List Host.Cell

/-- The sequencer's phases (R28). -/
inductive Phase where
  | idle | pre | hdr | pix | copy | trl | done
  deriving DecidableEq, Repr

/-- The two failures (R160). -/
inductive Failure where
  | invalidWidth
  | malformedPixelBuffer
  deriving DecidableEq, Repr

/-- What the host does at one step of the machine. `issue` presents a request together with the bytes
of its IN space (R135), `acknowledge` takes the result and is held until the block is in DONE (R150),
`reset` is the reset input (R180), `wait` is no move, and `operate` hands the block one instruction of
the opcode table to be carried out whole, at the function level of R12 (log entry 7), with the bytes of
its IN space if it is an operation (R20; log entry 19). -/
inductive HostMove where
  | wait
  | issue (r : Request) (data : List Byte)
  | acknowledge
  | reset
  | operate (e : Encoded) (data : List Byte)
  deriving DecidableEq, Repr

/-- Why the machine stops.
`inputAbsent`: raised by RASTERIZE, ENCODE and PRINT and by the pixel and copy steps when the
host has supplied no byte of IN at an offset below `len`, against R135; safe (the spec gives no value;
log entry 15).
`noStepEnabled phase`: raised by a block step when `idx` or `p` lies outside the range its phase allows,
so that no rule R136 to R147 enables a step; no run reaches such a state; safe
(log entry 14). -/
inductive Fault where
  | inputAbsent
  | noStepEnabled (phase : Phase)
  deriving DecidableEq, Repr

/-- Why an instruction is given no meaning.
`notModelled mnemonic`: an instruction that has no meaning in this model; raised by no arm; safe.
`notAnEncoding reason`: raised by the fetch of a word that encodes no instruction (R74); safe. -/
inductive Refusal where
  | notModelled (mnemonic : String)
  | notAnEncoding (reason : DecodeError)
  deriving DecidableEq, Repr

/-- The state of the block and of what stands at its ports. The names are the spec's. -/
structure State where
  /-- the sequencer (R28) -/
  phase     : Phase
  /-- the latched request descriptor (R26) -/
  op        : BitVec 2
  width     : Nat
  len       : Nat
  height    : Nat
  /-- the datapath registers (R22 to R25) -/
  acc       : Byte
  b         : BitVec 3
  p         : Nat
  h         : Nat
  npix      : Nat
  idx       : Nat
  /-- the contribution THRESH hands to PACK, the only predicate (R29); log entry 6 -/
  k         : Bool
  /-- the completion record (R27) -/
  status    : BitVec 2
  heightOut : Nat
  outLen    : Nat
  /-- the space IN, supplied with a request and read-only for the block (R40, R41) -/
  inMem     : Memory
  /-- the space OUT (R31, R40) -/
  outMem    : Memory
  /-- the host's moves to come, the next one first (R132); log entry 7 -/
  host      : List HostMove
  /-- the model's own counter of free values drawn; log entry 3 -/
  draws     : Nat
  deriving DecidableEq, Repr

/-- Right after reset: the phase is IDLE (R32); the spec leaves all the rest unspecified, and the
model holds 0 in every register, nothing in the two spaces and no move of the host (log entry 1). -/
def State.reset : State where
  phase     := .idle
  op        := 0
  width     := 0
  len       := 0
  height    := 0
  acc       := 0
  b         := 0
  p         := 0
  h         := 0
  npix      := 0
  idx       := 0
  k         := false
  status    := 0
  heightOut := 0
  outLen    := 0
  inMem     := []
  outMem    := []
  host      := []
  draws     := 0

end Sys2Proof.Machine
end

