-- ==== Sys2Proof/Machine/Ops.lean ====
section
/-! DEFINITION. The named operations over the byte spaces and the registers: `MemRead` and `Emit`
(spec/00_scope.md R10), the latching of a request (R136), failure completion, completion and the return
to IDLE (spec/43_pipeline_and_step_machine.md R148 to R150, spec/60_exceptions.md R164, R167), and what
the host may observe (R45, R133). -/

namespace Sys2Proof.Machine

/-- The canonical form: offsets strictly rising. -/
abbrev Memory.wf (m : Memory) : Prop := (m.map Prod.fst).Pairwise (· < ·)

/-- The byte at offset `a`, if the space holds one. -/
def Memory.read : Memory → Nat → Option Byte
  | [], _          => none
  | (a, v) :: m, x => if x = a then some v else Memory.read m x

/-- Write one byte, keeping the canonical form. -/
def Memory.write : Memory → Nat → Byte → Memory
  | [], x, v          => [(x, v)]
  | (a, w) :: m, x, v =>
    if x < a then (x, v) :: (a, w) :: m
    else if x = a then (x, v) :: m
    else (a, w) :: Memory.write m x v

/-- `MemRead(space:from, n)`: `n` bytes, first offset first (R10); `none` if one is absent. -/
def Memory.readBytes (m : Memory) (start : Nat) : Nat → Option (List Byte)
  | 0     => some []
  | n + 1 =>
    match m.read start with
    | none   => none
    | some v =>
      match Memory.readBytes m (start + 1) n with
      | none    => none
      | some vs => some (v :: vs)

/-- The space that holds a byte string at the offsets from `start` on, and nothing else. -/
def Memory.ofBytesAt (start : Nat) : List Byte → Memory
  | []      => []
  | v :: vs => (start, v) :: Memory.ofBytesAt (start + 1) vs

/-- The IN space of a request whose data is `data` (R40, R41). -/
def Memory.ofBytes (data : List Byte) : Memory := Memory.ofBytesAt 0 data

/-- `Emit(v)`: write `v` at OUT offset `out_len` and advance `out_len` (R10). -/
def emit (v : Byte) (s : State) : State :=
  { s with outMem := s.outMem.write s.outLen v, outLen := s.outLen + 1 }

/-- `Emit` of a byte string, first byte first. -/
def emitAll : List Byte → State → State
  | [], s      => s
  | v :: vs, s => emitAll vs (emit v s)

/-- The first part of the acceptance step: latch the descriptor and clear `out_len`, `acc`, `b`, `p`
and `idx` (R136). -/
def latch (r : Request) (s : State) : State :=
  { s with
    op := r.op, width := r.width, len := r.len, height := r.height,
    outLen := 0, acc := 0, b := 0, p := 0, idx := 0 }

/-- `Complete(0, height)`: success (R148). -/
def complete (height : Nat) (s : State) : State :=
  { s with status := 0, heightOut := height, phase := .done }

/-- The status code of a failure (R160). -/
def Failure.code : Failure → BitVec 2
  | .invalidWidth         => 1
  | .malformedPixelBuffer => 2

/-- Failure completion, the block's one exception entry (R149, R164). -/
def raise (e : Failure) (s : State) : State :=
  { s with status := e.code, heightOut := 0, outLen := 0, phase := .done }

/-- A free value for a register of `LEN_BITS` bits (R32). -/
def freeLen (s : State) (r : FreeReg) : Nat := Config.freeValue s.draws r % 2 ^ Config.lenBits

/-- The return to IDLE: `phase <- IDLE`, and everything else the block holds is without a specified
value (R32, R150, R180, U13): the registers take free values, OUT holds no byte. IN is not the
block's (R20) and stays; the next operation brings its own (R21). -/
def toIdle (s : State) : State :=
  { s with
    phase := .idle
    op := BitVec.ofNat 2 (Config.freeValue s.draws .op)
    width := Config.freeValue s.draws .width % 2 ^ Config.wBits
    len := freeLen s .len
    height := freeLen s .height
    acc := BitVec.ofNat 8 (Config.freeValue s.draws .acc)
    b := BitVec.ofNat 3 (Config.freeValue s.draws .b)
    p := freeLen s .p
    h := freeLen s .h
    npix := freeLen s .npix
    idx := freeLen s .idx
    k := decide (Config.freeValue s.draws .k % 2 = 1)
    status := BitVec.ofNat 2 (Config.freeValue s.draws .status)
    heightOut := freeLen s .heightOut
    outLen := freeLen s .outLen
    outMem := []
    draws := s.draws + 1 }

/-- The effect of the reset input, in any phase (R180 to R182). -/
def resetBlock (s : State) : State := toIdle s

/-- The effect of the host's acknowledgement in DONE, the return from a success or a failure
(R150, R167). -/
def acknowledge (s : State) : State := toIdle s

/-- What the host reads of a finished operation (R133). -/
structure Observation where
  status    : BitVec 2
  heightOut : Nat
  outLen    : Nat
  out       : List Byte
  deriving DecidableEq, Repr

/-- The observation, open to the host only in DONE (R45, R190). -/
def observe (s : State) : Option Observation :=
  if s.phase = .done then
    match s.outMem.readBytes 0 s.outLen with
    | none     => none
    | some out => some ⟨s.status, s.heightOut, s.outLen, out⟩
  else none

end Sys2Proof.Machine
end

