-- ==== Sys2Proof/Machine/Formatter.lean ====
section
/-! DEFINITION. FMT, the formatter (spec/42_raster_command_formatter.md): the four emitted commands
(R111 to R114) and the whole command stream (R70, R119). -/

namespace Sys2Proof.Machine

/-- PREAMBLE: INIT, STDMODE, LF (R134). -/
def preamble : List Byte := initBytes ++ stdmodeBytes ++ lfBytes

/-- `encodeRasterCommand(bitmap, width, height)`, the function of the source (R70, R119), with the
parameter XH_COMPUTED as an argument. -/
def encodeRasterCommandWith (xhComputed : Bool) (bitmap : List Byte) (width height : Nat) :
    List Byte :=
  preamble ++ headerBytes xhComputed width height ++ bitmap ++ lfBytes

/-- `encodeRasterCommand` of the configured block (R119). -/
def encodeRasterCommand (bitmap : List Byte) (width height : Nat) : List Byte :=
  encodeRasterCommandWith Config.xhComputed bitmap width height

/-- INIT (R111). -/
def execInit (s : State) : Host.Outcome State Fault Refusal := .next (emitAll initBytes s)

/-- STDMODE (R112). -/
def execStdmode (s : State) : Host.Outcome State Fault Refusal := .next (emitAll stdmodeBytes s)

/-- LF (R113). -/
def execLf (s : State) : Host.Outcome State Fault Refusal := .next (emitAll lfBytes s)

/-- RASTER: the header, then the payload, raw (R114). -/
def execRaster (width height : Nat) (bitmap : List Byte) (s : State) :
    Host.Outcome State Fault Refusal :=
  .next (emitAll bitmap (emitAll (headerBytes Config.xhComputed width height) s))

end Sys2Proof.Machine
end

