-- ==== Sys2Proof/Machine/Flags.lean ====
section
/-! DEFINITION. The block has no condition codes; its only predicate is the contribution of a pixel
(spec/10_state.md R29), computed here (spec/40_threshold_rasterizer.md R85 to R90). -/

namespace Sys2Proof.Machine

/-- `S`, the luminance scaled by 10000, exact (R87, R89). -/
def scaledLuminance (red green blue : Byte) : Nat :=
  2126 * red.toNat + 7152 * green.toNat + 722 * blue.toNat

/-- THRESH as a function: the alpha test, then the luminance test (R90). -/
def contribution (red green blue alpha : Byte) : Bool :=
  if alpha.toNat ≤ 126 then false
  else decide (scaledLuminance red green blue < 1280000)

end Sys2Proof.Machine
end

