-- ==== Sys2Proof/Machine/Operands.lean ====
section
/-! DEFINITION. The operand forms: the request's fields and their check (spec/60_exceptions.md R161 to
R163) and the operands read from IN, one pixel or one byte (spec/20_memory.md R42, R48). -/

namespace Sys2Proof.Machine

/-- The check of a RASTERIZE or PRINT request: the width first, the length only for a valid width
(R161 to R163). On success it answers the height, `len div (4*width)`. -/
def checkRequest (width len : Nat) : Except Failure Nat :=
  if width = 0 ∨ width % 8 ≠ 0 then .error .invalidWidth
  else if len % (4 * width) ≠ 0 then .error .malformedPixelBuffer
  else .ok (len / (4 * width))

/-- Pixel `p` of the PixelBuffer in IN: red, green, blue, alpha at offsets `4p` to `4p+3` (R42). -/
def readPixel (m : Memory) (p : Nat) : Option (Byte × Byte × Byte × Byte) :=
  match m.readBytes (4 * p) 4 with
  | some [red, green, blue, alpha] => some (red, green, blue, alpha)
  | _ => none

/-- The data operand of a whole request, `IN:0` to `IN:len-1` (R92, R119, R130). -/
def readData (m : Memory) (len : Nat) : Option (List Byte) := m.readBytes 0 len

end Sys2Proof.Machine
end

