-- ==== Sys2Proof/Machine/Threshold.lean ====
section
/-! DEFINITION. THRESH (spec/40_threshold_rasterizer.md R85 to R90). -/

namespace Sys2Proof.Machine

/-- The contributions of a PixelBuffer, in pixel order (R42, R92). -/
def contributions : List Byte → List Bool
  | red :: green :: blue :: alpha :: rest =>
    contribution red green blue alpha :: contributions rest
  | _ => []

/-- THRESH: its one result is the contribution `k`; it reads no state and writes no other (R85, R90). -/
def execThresh (red green blue alpha : Byte) (s : State) : Host.Outcome State Fault Refusal :=
  .next { s with k := contribution red green blue alpha }

end Sys2Proof.Machine
end

