-- ==== Sys2Proof/Machine/Packer.lean ====
section
/-! DEFINITION. PACK, the packer (spec/41_bitpacker_msb_first.md): PACK8 (R100), the streaming step
(R101) and the packing of a whole sequence of contributions (R92, R102). -/

namespace Sys2Proof.Machine

/-- The weight of a contribution: `w` when it is 1 (R100). -/
def weigh (k : Bool) (w : Nat) : Nat := if k then w else 0

/-- PACK8 (R100). -/
def pack8 (k0 k1 k2 k3 k4 k5 k6 k7 : Bool) : Byte :=
  BitVec.ofNat 8 (weigh k0 128 + weigh k1 64 + weigh k2 32 + weigh k3 16 +
    weigh k4 8 + weigh k5 4 + weigh k6 2 + weigh k7 1)

/-- The bytes of a sequence of contributions, eight to a byte; a last group of fewer than eight cannot
occur (R104, U18) and gives nothing. -/
def packBits : List Bool → List Byte
  | k0 :: k1 :: k2 :: k3 :: k4 :: k5 :: k6 :: k7 :: rest =>
    pack8 k0 k1 k2 k3 k4 k5 k6 k7 :: packBits rest
  | _ => []

/-- PACK(k), the streaming step (R101). -/
def packStep (k : Bool) (s : State) : State :=
  let merged := if k then s.acc + BitVec.ofNat 8 (2 ^ (7 - s.b.toNat)) else s.acc
  if s.b = 7 then { emit merged s with acc := 0, b := 0 }
  else { s with acc := merged, b := s.b + 1 }

/-- PACK, the row of the opcode table: PACK8 of eight contributions becomes the next byte of OUT
(R100, R92). Log entry 10. -/
def execPack (k0 k1 k2 k3 k4 k5 k6 k7 : Bool) (s : State) : Host.Outcome State Fault Refusal :=
  .next (emit (pack8 k0 k1 k2 k3 k4 k5 k6 k7) s)

end Sys2Proof.Machine
end

