-- ==== Sys2Proof/Machine/Requests.lean ====
section
/-! DEFINITION. The operations of format REQ at the function level, which is the normative one
(spec/00_scope.md R12): RASTERIZE (spec/40_threshold_rasterizer.md R92), ENCODE
(spec/42_raster_command_formatter.md R119), PRINT (spec/43_pipeline_and_step_machine.md R130) and the
reserved operation code (spec/30_encoding.md R63). A request is taken in IDLE only (R135). -/

namespace Sys2Proof.Machine

/-- The bitmap of a PixelBuffer (R92). -/
def bitmapOf (pixels : List Byte) : List Byte := packBits (contributions pixels)

/-- `rasterize(pixels, width)`, the function of the source (R92). -/
def rasterize (pixels : List Byte) (width : Nat) : Except Failure (List Byte × Nat) :=
  match checkRequest width pixels.length with
  | .error e   => .error e
  | .ok height => .ok (bitmapOf pixels, height)

/-- `print(pixels, width)`: rasterize, then encode (R130). -/
def print (pixels : List Byte) (width : Nat) : Except Failure (List Byte × Nat) :=
  match rasterize pixels width with
  | .error e             => .error e
  | .ok (bitmap, height) => .ok (encodeRasterCommand bitmap width height, height)

/-- The registers the pixel phase leaves behind after all of `pixels` (R142): every pixel counted, the
last contribution in `k`. Log entry 13. -/
def pixelsDone (pixels : List Byte) (height : Nat) (s : State) : State :=
  { s with
    h := height
    npix := pixels.length / 4
    p := pixels.length / 4
    k := (contributions pixels).getLastD s.k }

/-- What RASTERIZE and PRINT share: the request is latched and checked before any byte of IN is read
(R92, R136), the data read, and the operation ends with the bytes of `f` in OUT and the height
(R148), or with the failure (R149). IN holds the data that came with this operation (R20; `offer`,
`supplyData`). -/
def pixelOperation (f : List Byte → Nat → Except Failure (List Byte × Nat)) (r : Request) (s : State) :
    Host.Outcome State Fault Refusal :=
  if s.phase ≠ .idle then .next s
  else
    match checkRequest r.width r.len with
    | .error e => .next (raise e (latch r s))
    | .ok _ =>
      match readData s.inMem r.len with
      | none => .fault .inputAbsent
      | some pixels =>
        match f pixels r.width with
        | .error e => .next (raise e (latch r s))
        | .ok (bytes, height) =>
          .next (complete height (emitAll bytes (pixelsDone pixels height (latch r s))))

/-- RASTERIZE (R92). The field `height` is latched and otherwise ignored. -/
def execRasterize (width len height : Nat) (s : State) : Host.Outcome State Fault Refusal :=
  pixelOperation rasterize ⟨0, width, len, height⟩ s

/-- PRINT (R130). The field `height` is latched and otherwise ignored. -/
def execPrint (width len height : Nat) (s : State) : Host.Outcome State Fault Refusal :=
  pixelOperation print ⟨2, width, len, height⟩ s

/-- The registers the copy phase leaves behind (R136, R145, R146). -/
def copyDone (len height : Nat) (s : State) : State :=
  { s with h := height, npix := 0, idx := len }

/-- ENCODE: no check of the request at all (R116), the whole data as payload (R117, R119). IN holds
the data that came with this operation (R20; `offer`, `supplyData`). -/
def execEncode (width len height : Nat) (s : State) : Host.Outcome State Fault Refusal :=
  if s.phase ≠ .idle then .next s
  else
    match readData s.inMem len with
    | none => .fault .inputAbsent
    | some bitmap =>
      .next (complete height (emitAll (encodeRasterCommand bitmap width height)
        (copyDone len height (latch ⟨1, width, len, height⟩ s))))

/-- The reserved operation code: the request is not accepted, no failure is raised, and the block
stays as it is, in IDLE (R63, U10). Log entry 4. -/
def execReservedOp3 (_width _len _height : Nat) (s : State) : Host.Outcome State Fault Refusal :=
  .next s

end Sys2Proof.Machine
end

