-- ==== Sys2Proof/Machine/Dispatch.lean ====
section
/-! DEFINITION. One arm per instruction. -/

namespace Sys2Proof.Machine

def exec (i : Instr) (s : State) : Host.Outcome State Fault Refusal :=
  match i with
  | .rasterize width len height => Sys2Proof.Machine.execRasterize width len height s
  | .encode width len height => Sys2Proof.Machine.execEncode width len height s
  | .print width len height => Sys2Proof.Machine.execPrint width len height s
  | .reservedOp3 width len height => Sys2Proof.Machine.execReservedOp3 width len height s
  | .thresh red green blue alpha => Sys2Proof.Machine.execThresh red green blue alpha s
  | .pack k0 k1 k2 k3 k4 k5 k6 k7 => Sys2Proof.Machine.execPack k0 k1 k2 k3 k4 k5 k6 k7 s
  | .init => Sys2Proof.Machine.execInit s
  | .stdmode => Sys2Proof.Machine.execStdmode s
  | .lf => Sys2Proof.Machine.execLf s
  | .raster width height bitmap => Sys2Proof.Machine.execRaster width height bitmap s

end Sys2Proof.Machine
end

