-- ==== Sys2Proof/Machine/Sequencer.lean ====
section
/-! DEFINITION. The step machine (spec/43_pipeline_and_step_machine.md R132 to R150): the block steps,
one byte or one pixel each, the steps the host's moves make, and the fetch of an instruction that the
host hands over whole. -/

namespace Sys2Proof.Machine

/-- Block step, accept (R136): latch, check, and enter the first phase of the operation. -/
def accept (r : Request) (s : State) : State :=
  if r.op = 1 then { latch r s with h := r.height, npix := 0, phase := .pre }
  else
    match checkRequest r.width r.len with
    | .error e => raise e (latch r s)
    | .ok height =>
      { latch r s with
        h := height, npix := r.len / 4, phase := if r.op = 0 then .pix else .pre }

/-- A request is presented in IDLE together with its IN space (R135): the reserved operation code is
not accepted and the block stays in IDLE (R63); any other is accepted at once. -/
def offer (r : Request) (data : List Byte) (s : State) : State :=
  if r.op = 3 then s else accept r { s with inMem := Memory.ofBytes data }

/-- Block step, preamble (R137). -/
def preStep (s : State) : Host.Outcome State Fault Refusal :=
  match preamble[s.idx]? with
  | none => .fault (.noStepEnabled .pre)
  | some v =>
    if s.idx = 6 then .next { emit v s with phase := .hdr, idx := 0 }
    else .next { emit v s with idx := s.idx + 1 }

/-- Block step, header (R138): the bytes of `HDR8 = HEADER(width, h)` (R134). -/
def hdrStep (s : State) : Host.Outcome State Fault Refusal :=
  match (headerBytes Config.xhComputed s.width s.h)[s.idx]? with
  | none => .fault (.noStepEnabled .hdr)
  | some v =>
    if s.idx = 7 then
      .next { emit v s with idx := 0, phase := if s.op = 2 then .pix else .copy }
    else .next { emit v s with idx := s.idx + 1 }

/-- Block steps of the pixel phase: a pixel is read, thresholded and packed (R142), or all pixels are
done and the phase ends (R143). -/
def pixStep (s : State) : Host.Outcome State Fault Refusal :=
  if s.p < s.npix then
    match readPixel s.inMem s.p with
    | none => .fault .inputAbsent
    | some (red, green, blue, alpha) =>
      let k := contribution red green blue alpha
      .next { packStep k { s with k := k } with p := s.p + 1 }
  else if s.p = s.npix then
    if s.op = 0 then .next (complete s.h s) else .next { s with phase := .trl }
  else .fault (.noStepEnabled .pix)

/-- Block steps of the copy phase: a byte is copied (R145), or all are and the phase ends (R146). -/
def copyStep (s : State) : Host.Outcome State Fault Refusal :=
  if s.idx < s.len then
    match s.inMem.read s.idx with
    | none   => .fault .inputAbsent
    | some v => .next { emit v s with idx := s.idx + 1 }
  else if s.idx = s.len then .next { s with phase := .trl }
  else .fault (.noStepEnabled .copy)

/-- Block step, trailer (R147). -/
def trlStep (s : State) : Host.Outcome State Fault Refusal :=
  .next (complete s.h (emitAll lfBytes s))

/-- The block's own step. In IDLE, with nothing presented, and in DONE, until the acknowledgement, the
block holds its state (R132, R150). -/
def blockStep (s : State) : Host.Outcome State Fault Refusal :=
  match s.phase with
  | .idle => .next s
  | .pre  => preStep s
  | .hdr  => hdrStep s
  | .pix  => pixStep s
  | .copy => copyStep s
  | .trl  => trlStep s
  | .done => .next s

/-- One step of the machine that runs no instruction whole. The host's next move is taken if it is
enabled: the reset in any phase (R180), a request in IDLE (R135), the acknowledgement in DONE (R150).
A request or an instruction presented in another phase is dropped and has no effect (R135); an
acknowledgement waits for DONE. When the host makes no move, the block makes its own. Log entries 11
and 12. -/
def machineStep (s : State) : Host.Outcome State Fault Refusal :=
  match s.host with
  | [] => blockStep s
  | .wait :: rest => blockStep { s with host := rest }
  | .reset :: rest => .next (resetBlock { s with host := rest })
  | .issue r data :: rest =>
    if s.phase = .idle then .next (offer r data { s with host := rest })
    else blockStep { s with host := rest }
  | .acknowledge :: rest =>
    if s.phase = .done then .next (acknowledge { s with host := rest }) else blockStep s
  | .operate _ _ :: rest => blockStep { s with host := rest }

/-- The IN space of an instruction handed over whole: an operation's is the data that comes with it (R20,
R21), as for a request presented with `issue`; the reserved code is not accepted (R63), and the other rows
read no IN, so for them IN stays. Log entry 19. -/
def supplyData (e : Encoded) (data : List Byte) (s : State) : State :=
  match e with
  | .req r    => if r.op = 3 then s else { s with inMem := Memory.ofBytes data }
  | .pixel _  => s
  | .packed _ => s
  | .cmd _    => s

/-- The instruction handed over whole, and the state it is run in: the move is taken from the host's
moves, and the data of an operation is its IN (log entry 19). In IDLE only (R135). -/
def fetch (s : State) : Option (Encoded × State) :=
  match s.phase, s.host with
  | .idle, .operate e data :: rest => some (e, supplyData e data { s with host := rest })
  | _, _ => none

/-- The state in which the very next step fetches the instruction `e`. It comes with no data: a word of the
opcode table has no bits for `len`, so its `len` is 0 (log entry 9). -/
def placeInstruction (s : State) (e : Encoded) : State :=
  { s with phase := .idle, host := .operate e [] :: s.host }

end Sys2Proof.Machine
end

