-- ==== Sys2Proof/Machine/Step.lean ====
section
/-! DEFINITION. One step of the machine: an instruction handed over whole is decoded and run at the
function level (spec/00_scope.md R12); otherwise the step machine makes one step
(spec/43_pipeline_and_step_machine.md R132). -/

namespace Sys2Proof.Machine

/-- One step. -/
def step (s : State) : Host.Outcome State Fault Refusal :=
  match fetch s with
  | some (e, s') =>
    match decode e with
    | .ok i    => exec i s'
    | .error d => .refused (.notAnEncoding d)
  | none => machineStep s

/-- `s` with the instruction of a word of spec/opcode_table.json placed so that the next step runs it. -/
def State.withFetchWord (s : State) (nbits w : Nat) : State :=
  placeInstruction s (encodedOfTableWord nbits w)

end Sys2Proof.Machine
end

