-- ==== Sys2Proof/Safety.lean ====
section
/-! DEFINITION. The terms claims are stated in: what an outcome holds, the invariant of the step machine
(spec/41_bitpacker_msb_first.md R103, R104, spec/43_pipeline_and_step_machine.md), what the host must
respect (spec/70_reset_and_hazards.md R184 to R190), and the order of the phases (spec/10_state.md R28). -/

namespace Sys2Proof.Machine

/-- The next state an outcome holds, if it holds one. -/
def nextState : Host.Outcome State Fault Refusal → Option State
  | .next s    => some s
  | .fault _   => none
  | .refused _ => none

/-- What the host can observe of an outcome. -/
def observeOutcome (o : Host.Outcome State Fault Refusal) : Option Observation :=
  match nextState o with
  | some s => observe s
  | none   => none

/-- `n` steps of the machine, ending at the first fault or refusal. -/
def run : Nat → State → Host.Outcome State Fault Refusal
  | 0, s     => .next s
  | n + 1, s =>
    match step s with
    | .next t    => run n t
    | .fault r   => .fault r
    | .refused r => .refused r

/-- The number of payload bytes of the operation that is running (R49, R93). -/
def payloadBytes (s : State) : Nat := if s.op = 1 then s.len else s.npix / 8

/-- The length of the operation's result (R49). -/
def resultBytes (s : State) : Nat :=
  if s.op = 0 then s.npix / 8 else 16 + payloadBytes s

/-- The registers hold what the acceptance of a valid request put there (R136): for ENCODE the
request's height and no pixels; else a valid width, the height and the number of pixels of `len`. -/
def Latched (s : State) : Prop :=
  (s.op = 1 ∧ s.h = s.height ∧ s.npix = 0) ∨
  ((s.op = 0 ∨ s.op = 2) ∧ s.width ≠ 0 ∧ s.width % 8 = 0 ∧ s.len = 4 * s.width * s.h ∧
    s.npix = s.width * s.h)

/-- What holds in each phase. The packer's part is R103: `b = p mod 8`, and the bits of `acc` from
`7 - b` down are 0. -/
def PhaseInv (s : State) : Prop :=
  match s.phase with
  | .idle => True
  | .pre  => Latched s ∧ s.op ≠ 0 ∧ s.p = 0 ∧ s.b = 0 ∧ s.acc = 0 ∧ s.idx ≤ 6 ∧ s.outLen = s.idx
  | .hdr  => Latched s ∧ s.op ≠ 0 ∧ s.p = 0 ∧ s.b = 0 ∧ s.acc = 0 ∧ s.idx ≤ 7 ∧ s.outLen = 7 + s.idx
  | .pix  => Latched s ∧ s.op ≠ 1 ∧ s.p ≤ s.npix ∧ s.b.toNat = s.p % 8 ∧
      s.acc.toNat % 2 ^ (8 - s.p % 8) = 0 ∧ s.outLen = (if s.op = 0 then 0 else 15) + s.p / 8
  | .copy => Latched s ∧ s.op = 1 ∧ s.idx ≤ s.len ∧ s.outLen = 15 + s.idx
  | .trl  => Latched s ∧ s.op ≠ 0 ∧ s.outLen = 15 + payloadBytes s
  | .done => (s.status = 0 ∧ Latched s ∧ s.heightOut = s.h ∧ s.outLen = resultBytes s) ∨
      ((s.status = 1 ∨ s.status = 2) ∧ (s.op = 0 ∨ s.op = 2) ∧ s.heightOut = 0 ∧ s.outLen = 0)

/-- The bytes of OUT below `out_len` have been written (R31). -/
def Written (s : State) : Prop :=
  s.phase ≠ .idle → ∀ a, a < s.outLen → (s.outMem.read a).isSome = true

/-- The invariant of the machine: the spaces are in their canonical form, and each phase has what its
steps need. -/
def Inv (s : State) : Prop :=
  s.inMem.wf ∧ s.outMem.wf ∧ PhaseInv s ∧ Written s

/-- The host's part of a running operation: IN holds the `len` bytes of the request (R135, R184). -/
def Supplied (s : State) : Prop :=
  s.phase ≠ .idle → s.phase ≠ .done → ∀ a, a < s.len → (s.inMem.read a).isSome = true

/-- A move of a host that keeps its obligations: a request is an admitted one with all its data (R135,
R184), and no instruction is handed over whole. -/
def HostMove.admitted : HostMove → Bool
  | .wait         => true
  | .issue r data => r.admitted && decide (r.len ≤ data.length)
  | .acknowledge  => true
  | .reset        => true
  | .operate _ _  => false

/-- All the host's moves to come keep its obligations. -/
def AdmittedHost (s : State) : Prop := ∀ m ∈ s.host, m.admitted = true

/-- Every register fits a field of its width, `w` bits for `width` and `l` bits for the others, and the
result of the accepted request fits too (R6, R24 to R27). -/
def RegistersFit (w l : Nat) (s : State) : Prop :=
  s.width < 2 ^ w ∧ s.len < 2 ^ l ∧ s.height < 2 ^ l ∧ s.p < 2 ^ l ∧ s.h < 2 ^ l ∧
    s.npix < 2 ^ l ∧ s.idx < 2 ^ l ∧ s.heightOut < 2 ^ l ∧ s.outLen < 2 ^ l ∧
    (s.phase ≠ .idle → 16 + s.len < 2 ^ l)

/-- The steps from one phase to the next that the operation `op` may take (R28); the steps to IDLE are
the host's. -/
def phaseMayFollow (op : BitVec 2) : Phase → Phase → Bool
  | .idle, .pix  => op = 0
  | .idle, .pre  => op = 1 ∨ op = 2
  | .idle, .done => op = 0 ∨ op = 2
  | .pre,  .hdr  => op = 1 ∨ op = 2
  | .hdr,  .copy => op = 1
  | .hdr,  .pix  => op = 2
  | .copy, .trl  => op = 1
  | .pix,  .done => op = 0
  | .pix,  .trl  => op = 2
  | .trl,  .done => op = 1 ∨ op = 2
  | _, _ => false

/-- An ENCODE request whose arguments agree, the caller's duty (R186). -/
def requestConsistent (r : Request) : Bool :=
  decide (r.width % 8 = 0) && decide (r.len = r.width / 8 * r.height)

/-- Sizes the header can state, the caller's duty (R187, R188). -/
def withinCeiling (width height : Nat) : Bool :=
  decide (width < 2048) && decide (height < 65536)

/-- The move hands over no instruction whole: it is one of the moves the spec gives the host (R132). -/
def HostMove.specified : HostMove → Bool
  | .operate _ _ => false
  | _            => true

/-- What the function level says of a request and its data: `rasterize`, `encodeRasterCommand` or `print`
(R92, R119, R130), the bytes and the height. The reserved code is no operation. -/
def functionLevel (r : Request) (data : List Byte) : Except Failure (List Byte × Nat) :=
  if r.op = 1 then .ok (encodeRasterCommand data r.width r.height, r.height)
  else if r.op = 0 then rasterize data r.width
  else print data r.width

/-- The completion record and the bytes of a result of the function level (R133, R148, R149). -/
def resultOf : Except Failure (List Byte × Nat) → Observation
  | .error e            => ⟨e.code, 0, 0, []⟩
  | .ok (bytes, height) => ⟨0, height, bytes.length, bytes⟩

/-- The number of block steps of a request's operation, acceptance and completion included (R152). -/
def blockSteps (r : Request) : Nat :=
  if r.op = 1 then 18 + r.len
  else
    match checkRequest r.width r.len with
    | .error _ => 1
    | .ok _    => (if r.op = 0 then 2 else 18) + r.len / 4

/-- The host's moves to come do nothing to an operation that is running: none is left, or the next is
the acknowledgement, which waits for DONE (R150). -/
def hostHolds : List HostMove → Bool
  | []                => true
  | .acknowledge :: _ => true
  | _                 => false

end Sys2Proof.Machine
end

