-- ==== Sys2Proof/Certificates/Slice0/Obligations.lean ====
section
/-! DEFINITION. The statements for the provers, in the order of the spec's files: the threshold, the
packer, the formatter, the operations, the step machine, the host's moves, the encodings, the whole
machine. -/

open Sys2Proof Sys2Proof.Machine

/-! ### THRESH (40_threshold_rasterizer.md) -/

/-- R85, R90: THRESH answers a next state for every pixel and state; its only effect is the contribution
(the field `k` that holds it is the model's own, log entry 6). -/
def Obligations.ThreshWritesTheContribution : Prop :=
  ∀ (red green blue alpha : Byte) (s : State),
    exec (.thresh red green blue alpha) s = .next { s with
      k := if alpha.toNat ≤ 126 then false
           else decide (2126 * red.toNat + 7152 * green.toNat + 722 * blue.toNat < 1280000) }

/-- R86: alpha 126 or less is background whatever the colour; above, alpha plays no further part. -/
def Obligations.AlphaTestDecidesBelow127 : Prop :=
  ∀ red green blue alpha : Byte,
    (alpha.toNat ≤ 126 → contribution red green blue alpha = false) ∧
    (127 ≤ alpha.toNat → contribution red green blue alpha = contribution red green blue 255)

/-- R88: for a pixel that passes the alpha test the integer test is the test on the floored luminance.
-/
def Obligations.InkIffLuminanceBelow128 : Prop :=
  ∀ red green blue alpha : Byte, 127 ≤ alpha.toNat →
    (contribution red green blue alpha = true ↔
      2126 * red.toNat + 7152 * green.toNat + 722 * blue.toNat < 1280000) ∧
    (contribution red green blue alpha = true ↔
      (2126 * red.toNat + 7152 * green.toNat + 722 * blue.toNat) / 10000 ≤ 127)

/-- R89: the bounds of the products and of the sum, which fits 22 bits; a grey pixel has its own level
as luminance, and levels 0 to 127 are ink; the sum is monotone in each channel, and raising a channel
never turns background into ink. -/
def Obligations.LuminanceIsBoundedAndMonotone : Prop :=
  (∀ red green blue : Byte,
    2126 * red.toNat ≤ 542130 ∧ 7152 * green.toNat ≤ 1823760 ∧ 722 * blue.toNat ≤ 184110 ∧
    scaledLuminance red green blue = 2126 * red.toNat + 7152 * green.toNat + 722 * blue.toNat ∧
    scaledLuminance red green blue ≤ 2550000 ∧ scaledLuminance red green blue < 2 ^ 22) ∧
  (∀ g : Byte, scaledLuminance g g g = 10000 * g.toNat ∧
    (contribution g g g 255 = true ↔ g.toNat ≤ 127)) ∧
  (∀ r g b r' g' b' alpha : Byte, r.toNat ≤ r'.toNat → g.toNat ≤ g'.toNat → b.toNat ≤ b'.toNat →
    scaledLuminance r g b ≤ scaledLuminance r' g' b' ∧
    (contribution r' g' b' alpha = true → contribution r g b alpha = true))

/-- R97 (its first sentence): the colours of luminance exactly 128 are the nineteen listed, and all of
them are background. -/
def Obligations.ExactlyNineteenColoursAtLuminance128 : Prop :=
  ∀ red green blue : Byte,
    (scaledLuminance red green blue = 1280000 ↔
      (red.toNat, green.toNat, blue.toNat) ∈
        [(12, 175, 4), (15, 152, 223), (29, 165, 53), (46, 155, 102), (63, 145, 151),
         (80, 135, 200), (94, 148, 30), (97, 125, 249), (111, 138, 79), (128, 128, 128),
         (145, 118, 177), (159, 131, 7), (162, 108, 226), (176, 121, 56), (193, 111, 105),
         (210, 101, 154), (227, 91, 203), (241, 104, 33), (244, 81, 252)]) ∧
    (scaledLuminance red green blue = 1280000 →
      ∀ alpha : Byte, contribution red green blue alpha = false)

/-! ### PACK (41_bitpacker_msb_first.md) -/

/-- PACK answers a next state for every group of contributions and every state. Its result is the byte
of PACK8 (R100); that the row of the table writes it to OUT at `out_len`, and changes nothing else, is
the model's choice (log entry 10). -/
def Obligations.PackEmitsItsByte : Prop :=
  ∀ (k0 k1 k2 k3 k4 k5 k6 k7 : Bool) (s : State),
    ∃ t v, exec (.pack k0 k1 k2 k3 k4 k5 k6 k7) s = .next t ∧
      t = { s with outMem := t.outMem, outLen := s.outLen + 1 } ∧
      v.toNat = 128 * k0.toNat + 64 * k1.toNat + 32 * k2.toNat + 16 * k3.toNat +
        8 * k4.toNat + 4 * k5.toNat + 2 * k6.toNat + k7.toNat ∧
      t.outMem.read s.outLen = some v ∧
      (∀ a, a ≠ s.outLen → t.outMem.read a = s.outMem.read a)

/-- R62, R100, R106: the value of PACK8, contribution `b` of a packed byte is `(byte >> (7-b)) & 1`, and
PACK8 is a bijection between 8-bit tuples and bytes. -/
def Obligations.PackedByteReadsBack : Prop :=
  (∀ k0 k1 k2 k3 k4 k5 k6 k7 : Bool, (pack8 k0 k1 k2 k3 k4 k5 k6 k7).toNat =
    128 * k0.toNat + 64 * k1.toNat + 32 * k2.toNat + 16 * k3.toNat +
      8 * k4.toNat + 4 * k5.toNat + 2 * k6.toNat + k7.toNat) ∧
  (∀ k0 k1 k2 k3 k4 k5 k6 k7 : Bool, ∀ b : Fin 8,
    ((pack8 k0 k1 k2 k3 k4 k5 k6 k7).toNat >>> (7 - b.val)) % 2 =
      ([k0, k1, k2, k3, k4, k5, k6, k7].getD b.val false).toNat) ∧
  (∀ v : Byte, ∃ k0 k1 k2 k3 k4 k5 k6 k7, pack8 k0 k1 k2 k3 k4 k5 k6 k7 = v)

/-- R101: the streaming step of the packer. -/
def Obligations.StreamingStepMergesOrEmits : Prop :=
  ∀ (k : Bool) (s : State),
    let acc := s.acc + BitVec.ofNat 8 (k.toNat * 2 ^ (7 - s.b.toNat))
    (s.b = 7 → packStep k s =
      { s with outMem := s.outMem.write s.outLen acc, outLen := s.outLen + 1, acc := 0, b := 0 }) ∧
    (s.b ≠ 7 → packStep k s = { s with acc := acc, b := s.b + 1 })

/-- R102: from `acc = 0`, `b = 0`, `8*n` streaming steps emit `n` bytes, the j-th being PACK8 of
contributions `8j` to `8j+7`, and end with `acc = 0`, `b = 0`. -/
def Obligations.StreamingPackerEmitsPack8 : Prop :=
  ∀ (ks : List Bool) (n : Nat) (s : State), s.acc = 0 → s.b = 0 → ks.length = 8 * n →
    ∃ bytes : List Byte,
      ks.foldl (fun s k => packStep k s) s = emitAll bytes s ∧ bytes.length = n ∧
      (∀ j, j < n → bytes[j]? = some (pack8
        (ks.getD (8 * j) false) (ks.getD (8 * j + 1) false) (ks.getD (8 * j + 2) false)
        (ks.getD (8 * j + 3) false) (ks.getD (8 * j + 4) false) (ks.getD (8 * j + 5) false)
        (ks.getD (8 * j + 6) false) (ks.getD (8 * j + 7) false)))

/-- R103: after `p` streaming steps, `b = p mod 8`, the bits of `acc` from `7 - b` down are 0, and the
bits above hold the contributions of the open group; so setting bit `7 - b` is adding its weight, which
does not overflow. -/
def Obligations.PackerHoldsTheOpenGroup : Prop :=
  ∀ (ks : List Bool) (s : State), s.acc = 0 → s.b = 0 →
    let t := ks.foldl (fun s k => packStep k s) s
    t.b.toNat = ks.length % 8 ∧
    (∀ i, i < 8 → t.acc.getLsbD (7 - i) =
      if i < ks.length % 8 then ks.getD (ks.length - ks.length % 8 + i) false else false) ∧
    t.acc ||| BitVec.ofNat 8 (2 ^ (7 - t.b.toNat)) = t.acc + BitVec.ofNat 8 (2 ^ (7 - t.b.toNat)) ∧
    t.acc.toNat + 2 ^ (7 - t.b.toNat) < 256

/-! ### FMT (42_raster_command_formatter.md, 30_encoding.md) -/

/-- INIT, STDMODE and LF answer a next state in every state: their bytes (R111, R112, R113) are written at
`out_len` in order, and nothing else changes. In every RasterCommand they stand at offsets 0, 3 and 6, and
LF stands last again, the empty payload included. That a row run alone emits at the current `out_len` in
every state and phase, by `Emit` (R10), and changes nothing else is the model's choice (log entry 10). -/
def Obligations.FixedCommandsEmitTheirBytes : Prop :=
  (∀ (bitmap : List Byte) (width height : Nat),
    (encodeRasterCommand bitmap width height).take 7 = [0x1B, 0x40, 0x0A, 0x1B, 0x53, 0x0A, 0x0A] ∧
    (encodeRasterCommand bitmap width height)[15 + bitmap.length]? = some 0x0A) ∧
  ∀ s : State,
    exec .init s = .next { s with
      outMem := ((s.outMem.write s.outLen 0x1B).write (s.outLen + 1) 0x40).write (s.outLen + 2) 0x0A
      outLen := s.outLen + 3 } ∧
    exec .stdmode s = .next { s with
      outMem := ((s.outMem.write s.outLen 0x1B).write (s.outLen + 1) 0x53).write (s.outLen + 2) 0x0A
      outLen := s.outLen + 3 } ∧
    exec .lf s = .next { s with
      outMem := s.outMem.write s.outLen 0x0A
      outLen := s.outLen + 1 }

/-- RASTER answers a next state for every width, height and payload (nothing is checked): the eight header
bytes and then the payload, raw (R114), stand in OUT from `out_len` on; nothing else changes. That the row
run alone emits at the current `out_len` in every state and phase, by `Emit` (R10), and changes nothing
else is the model's choice (log entry 10). -/
def Obligations.RasterEmitsHeaderThenPayload : Prop :=
  ∀ (width height : Nat) (bitmap : List Byte) (s : State),
    ∃ t, exec (.raster width height bitmap) s = .next t ∧
      t = { s with outMem := t.outMem, outLen := s.outLen + 8 + bitmap.length } ∧
      t.outMem.readBytes s.outLen (8 + bitmap.length) = some
        ([0x1D, 0x76, 0x30, 0x30, BitVec.ofNat 8 (width / 8),
          if Config.xhComputed then BitVec.ofNat 8 (width / 2048) else 0,
          BitVec.ofNat 8 height, BitVec.ofNat 8 (height / 256)] ++ bitmap) ∧
      (∀ a, a < s.outLen ∨ s.outLen + 8 + bitmap.length ≤ a →
        t.outMem.read a = s.outMem.read a)

/-- The frame of the instructions that act on OUT only: registers, IN and the bytes of OUT below the old
and from the new `out_len` on are unchanged; THRESH changes no byte of OUT and no register but `k`. R31
gives that OUT is written only by `Emit`, at `out_len`. That a row run alone emits there in every phase
and changes nothing else, PACK leaving `acc` and `b` in particular, is the model's choice (log entry 10);
the field `k` is the model's own (log entry 6). -/
def Obligations.SubBlockInstructionsFrame : Prop :=
  ∀ (s t : State),
    (∀ i : Instr, (i = .init ∨ i = .stdmode ∨ i = .lf ∨
        (∃ k0 k1 k2 k3 k4 k5 k6 k7, i = .pack k0 k1 k2 k3 k4 k5 k6 k7) ∨
        (∃ width height bitmap, i = .raster width height bitmap)) →
      exec i s = .next t →
        t = { s with outMem := t.outMem, outLen := t.outLen } ∧ s.outLen < t.outLen ∧
        (∀ a, a < s.outLen ∨ t.outLen ≤ a → t.outMem.read a = s.outMem.read a)) ∧
    (∀ red green blue alpha, exec (.thresh red green blue alpha) s = .next t →
      t = { s with k := t.k })

/-- R68: the size bytes of the header for both settings of XH_COMPUTED. -/
def Obligations.HeaderSizeBytes : Prop :=
  ∀ width height : Nat,
    headerBytes false width height = [0x1D, 0x76, 0x30, 0x30,
      BitVec.ofNat 8 (width / 8 % 256), 0,
      BitVec.ofNat 8 (height % 256), BitVec.ofNat 8 (height / 256 % 256)] ∧
    headerBytes true width height = [0x1D, 0x76, 0x30, 0x30,
      BitVec.ofNat 8 (width / 8 % 256), BitVec.ofNat 8 (width / 2048 % 256),
      BitVec.ofNat 8 (height % 256), BitVec.ofNat 8 (height / 256 % 256)]

/-- R115: the header depends on `width` only through `(width div 8) mod 256`, and with XH_COMPUTED
`(width div 2048) mod 256`, and on `height` only through `height mod 65536`. With xH constant its size
bytes are exact if and only if the width is below 2048 and the height below 65536 (from R69). -/
def Obligations.HeaderIsExactOnlyWithinTheCeiling : Prop :=
  (∀ w h w' h' : Nat, w / 8 % 256 = w' / 8 % 256 → w / 2048 % 256 = w' / 2048 % 256 →
    h % 65536 = h' % 65536 → headerBytes true w h = headerBytes true w' h') ∧
  (∀ w h w' h' : Nat, w / 8 % 256 = w' / 8 % 256 → h % 65536 = h' % 65536 →
    headerBytes false w h = headerBytes false w' h') ∧
  (∀ w h : Nat, ∃ xL xH yL yH : Byte, headerBytes false w h = [0x1D, 0x76, 0x30, 0x30, xL, xH, yL, yH] ∧
    (w / 8 = xL.toNat + 256 * xH.toNat ↔ w < 2048) ∧
    (h = yL.toNat + 256 * yH.toNat ↔ h < 65536))

/-! ### The operations at the function level (R92, R119, R130) -/

/-- R117, R119: in IDLE, with the `len` bytes of the bitmap in IN, ENCODE completes for every
`width`, `len` and `height`; the host observes status 0, the request's height and the whole command. -/
def Obligations.EncodeCompletesWithTheCommand : Prop :=
  ∀ (width len height : Nat) (bitmap : List Byte) (s : State),
    s.phase = .idle → s.inMem.readBytes 0 len = some bitmap →
    ∃ t, exec (.encode width len height) s = .next t ∧
      observe t = some ⟨0, height, 16 + len,
        [0x1B, 0x40, 0x0A, 0x1B, 0x53, 0x0A, 0x0A, 0x1D, 0x76, 0x30, 0x30,
          BitVec.ofNat 8 (width / 8),
          if Config.xhComputed then BitVec.ofNat 8 (width / 2048) else 0,
          BitVec.ofNat 8 height, BitVec.ofNat 8 (height / 256)] ++ bitmap ++ [0x0A]⟩

/-- R93 and the success of R92: in IDLE, for a valid width and a length that is a multiple of `4*width`,
with the pixels in IN, RASTERIZE completes; the host observes status 0, the height, and
`(width div 8)*height`, that is `len div 32`, bytes, bit `7 - b` of byte `j` being THRESH of pixel
`8*j + b`. -/
def Obligations.RasterizeCompletesWithTheBitmap : Prop :=
  ∀ (width len height n : Nat) (pixels : List Byte) (s : State),
    s.phase = .idle → width ≠ 0 → width % 8 = 0 → len = 4 * width * n →
    s.inMem.readBytes 0 len = some pixels →
    ∃ t bitmap, exec (.rasterize width len height) s = .next t ∧
      observe t = some ⟨0, n, width / 8 * n, bitmap⟩ ∧
      bitmap.length = width / 8 * n ∧ width / 8 * n = len / 32 ∧
      (∀ j b, j < width / 8 * n → b < 8 →
        (bitmap.getD j 0).getLsbD (7 - b) = contribution
          (pixels.getD (4 * (8 * j + b)) 0) (pixels.getD (4 * (8 * j + b) + 1) 0)
          (pixels.getD (4 * (8 * j + b) + 2) 0) (pixels.getD (4 * (8 * j + b) + 3) 0))

/-- The success of R130: in IDLE, for a valid request with its pixels in IN, PRINT completes; the host
observes status 0, the height, and the raster command whose payload is the bitmap of the pixels. -/
def Obligations.PrintCompletesWithTheCommand : Prop :=
  ∀ (width len height n : Nat) (pixels : List Byte) (s : State),
    s.phase = .idle → width ≠ 0 → width % 8 = 0 → len = 4 * width * n →
    s.inMem.readBytes 0 len = some pixels →
    ∃ t bitmap, exec (.print width len height) s = .next t ∧
      rasterize pixels width = .ok (bitmap, n) ∧ bitmap.length = len / 32 ∧
      observe t = some ⟨0, n, 16 + len / 32,
        [0x1B, 0x40, 0x0A, 0x1B, 0x53, 0x0A, 0x0A, 0x1D, 0x76, 0x30, 0x30,
          BitVec.ofNat 8 (width / 8),
          if Config.xhComputed then BitVec.ofNat 8 (width / 2048) else 0,
          BitVec.ofNat 8 n, BitVec.ofNat 8 (n / 256)] ++ bitmap ++ [0x0A]⟩

/-- R163: in IDLE, RASTERIZE and PRINT with a width that is 0 or no multiple of 8 (R161) fail with
InvalidWidth whatever the length and whatever IN holds; the failure changes only what R136 and R164
list, and no byte of OUT. -/
def Obligations.InvalidWidthFailsFirst : Prop :=
  ∀ (width len height : Nat) (s : State), s.phase = .idle → (width = 0 ∨ width % 8 ≠ 0) →
    (exec (.rasterize width len height) s = .next { s with
      op := 0, width := width, len := len, height := height, acc := 0, b := 0, p := 0, idx := 0,
      status := 1, heightOut := 0, outLen := 0, phase := .done }) ∧
    (exec (.print width len height) s = .next { s with
      op := 2, width := width, len := len, height := height, acc := 0, b := 0, p := 0, idx := 0,
      status := 1, heightOut := 0, outLen := 0, phase := .done })

/-- In IDLE, RASTERIZE and PRINT with a valid width and a length that is no multiple of `4*width` (R162)
fail with MalformedPixelBuffer, whatever IN holds, with the entry of R164. -/
def Obligations.MalformedPixelBufferFails : Prop :=
  ∀ (width len height : Nat) (s : State), s.phase = .idle →
    width ≠ 0 → width % 8 = 0 → len % (4 * width) ≠ 0 →
    (exec (.rasterize width len height) s = .next { s with
      op := 0, width := width, len := len, height := height, acc := 0, b := 0, p := 0, idx := 0,
      status := 2, heightOut := 0, outLen := 0, phase := .done }) ∧
    (exec (.print width len height) s = .next { s with
      op := 2, width := width, len := len, height := height, acc := 0, b := 0, p := 0, idx := 0,
      status := 2, heightOut := 0, outLen := 0, phase := .done })

/-- The frame of the three operations: IN, the host's moves and the counter of free values are
unchanged, the descriptor in a state that has completed is the request's, and no byte of OUT at or
beyond the result's length changes. ENCODE, which thresholds no pixel, leaves `k`. The host's moves, the
counter and `k` are the model's own fields (log entries 7, 3 and 6). -/
def Obligations.OperationsFrame : Prop :=
  ∀ (width len height : Nat) (s t : State) (i : Instr),
    (i = .rasterize width len height ∨ i = .encode width len height ∨
      i = .print width len height) →
    s.phase = .idle → exec i s = .next t →
    t.phase = .done ∧ t.inMem = s.inMem ∧ t.host = s.host ∧ t.draws = s.draws ∧
    t.width = width ∧ t.len = len ∧ t.height = height ∧
    t.op = (match i with | .rasterize _ _ _ => 0 | .encode _ _ _ => 1 | _ => 2) ∧
    (i = .encode width len height → t.k = s.k) ∧
    (∀ a, t.outLen ≤ a → t.outMem.read a = s.outMem.read a)

/-- The composition of R130 (and program P2): a PRINT gives what an ENCODE of the bitmap and height of
a RASTERIZE gives. -/
def Obligations.PrintIsEncodeOfRasterize : Prop :=
  ∀ (width len height n m : Nat) (bitmap : List Byte) (s t u v w : State),
    s.phase = .idle → u.phase = .idle →
    exec (.rasterize width len height) s = .next t → observe t = some ⟨0, n, m, bitmap⟩ →
    u.inMem.readBytes 0 m = some bitmap → exec (.encode width m n) u = .next v →
    exec (.print width len height) s = .next w → observe w = observe v

/-- R43: in the bitmap of a valid request, `(width div 8)*height` bytes long, the contribution of
pixel `(r, c)` is bit `7 - (c mod 8)` of the byte at offset `r * (width div 8) + (c div 8)`, inside
the bytes of row `r`; in the linear index `p` that is bit `7 - (p mod 8)` of byte `p div 8`. -/
def Obligations.PixelLandsAtItsRowAndColumn : Prop :=
  ∀ (pixels bitmap : List Byte) (width n r c : Nat),
    rasterize pixels width = .ok (bitmap, n) → r < n → c < width →
    let p := r * width + c
    bitmap.length = width / 8 * n ∧
    r * (width / 8) + c / 8 = p / 8 ∧ c % 8 = p % 8 ∧
    r * (width / 8) + c / 8 < (r + 1) * (width / 8) ∧
    (bitmap.getD (r * (width / 8) + c / 8) 0).getLsbD (7 - c % 8) = contribution
      (pixels.getD (4 * p) 0) (pixels.getD (4 * p + 1) 0)
      (pixels.getD (4 * p + 2) 0) (pixels.getD (4 * p + 3) 0)

/-- R96: byte `j` of the bitmap is a function of the 32 bytes of IN from `32*j` on alone, and for a
fixed buffer the bitmap does not depend on the width, which decides the height only. -/
def Obligations.GroupsAreIndependent : Prop :=
  (∀ (px px' bm bm' : List Byte) (w w' n n' j : Nat),
    rasterize px w = .ok (bm, n) → rasterize px' w' = .ok (bm', n') →
    j < bm.length → j < bm'.length →
    (∀ i, 32 * j ≤ i → i < 32 * j + 32 → px[i]? = px'[i]?) → bm[j]? = bm'[j]?) ∧
  (∀ (px bm bm' : List Byte) (w w' n n' : Nat),
    rasterize px w = .ok (bm, n) → rasterize px w' = .ok (bm', n') →
    bm = bm' ∧ px.length = 4 * w * n ∧ px.length = 4 * w' * n')

/-- R94: an empty buffer with a valid width gives an empty bitmap of height 0, an all-transparent buffer
gives an all-zero bitmap, and a width that is no multiple of 8 is rejected. -/
def Obligations.RasterizeEdgeCases : Prop :=
  (∀ width : Nat, width ≠ 0 → width % 8 = 0 → rasterize [] width = .ok ([], 0)) ∧
  (∀ (pixels bitmap : List Byte) (width n : Nat), rasterize pixels width = .ok (bitmap, n) →
    (∀ p, 4 * p + 3 < pixels.length → (pixels.getD (4 * p + 3) 0).toNat ≤ 126) →
    ∀ j, j < bitmap.length → bitmap[j]? = some 0) ∧
  (∀ (pixels : List Byte) (width : Nat), width % 8 ≠ 0 →
    rasterize pixels width = .error .invalidWidth)

/-- The reserved operation (R63) completes in every state as no operation: nothing is accepted, no
failure is raised. That its row runs as no operation is the model's choice (log entry 4). -/
def Obligations.ReservedOperationIsNotAccepted : Prop :=
  ∀ (width len height : Nat) (data : List Byte) (rest : List HostMove) (s : State),
    exec (.reservedOp3 width len height) s = .next s ∧
    (s.phase = .idle → s.host = .issue ⟨3, width, len, height⟩ data :: rest →
      step s = .next { s with host := rest })

/-- A request is accepted in IDLE only (R135); in any other phase an operation has no effect. -/
def Obligations.BusyBlockTakesNoOperation : Prop :=
  ∀ (width len height : Nat) (s : State), s.phase ≠ .idle →
    exec (.rasterize width len height) s = .next s ∧
    exec (.encode width len height) s = .next s ∧
    exec (.print width len height) s = .next s

/-- Where the host has supplied no byte of IN at some offset below `len`, against R135, the operations in
IDLE stop with the fault `inputAbsent`, after the check of the request, and so do a pixel step and a copy
step that read such a byte (the model's choice, log entry 15). -/
def Obligations.AbsentInputStopsByName : Prop :=
  (∀ (width len height a : Nat) (s : State), s.phase = .idle → a < len → s.inMem.read a = none →
    exec (.encode width len height) s = .fault .inputAbsent ∧
    (width ≠ 0 → width % 8 = 0 → len % (4 * width) = 0 →
      exec (.rasterize width len height) s = .fault .inputAbsent ∧
      exec (.print width len height) s = .fault .inputAbsent)) ∧
  (∀ (i : Nat) (s : State), s.phase = .pix → s.p < s.npix → i < 4 → s.inMem.read (4 * s.p + i) = none →
    blockStep s = .fault .inputAbsent) ∧
  (∀ s : State, s.phase = .copy → s.idx < s.len → s.inMem.read s.idx = none →
    blockStep s = .fault .inputAbsent)

/-! ### The step machine (43_pipeline_and_step_machine.md) -/

/-- A step in IDLE runs the instruction the host hands over (the model's own move, log entry 7): if it
decodes, the step is `exec` of it in the state with that move taken, where IN of an operation is the data
handed over with it and IN of the other rows, which read none, stays (log entry 19); a word that encodes no
instruction is refused by name. -/
def Obligations.StepRunsTheDecodedInstruction : Prop :=
  ∀ (s : State) (e : Encoded) (data : List Byte) (rest : List HostMove),
    s.phase = .idle → s.host = .operate e data :: rest →
    (∀ i, decode e = .ok i → step s = exec i (match i with
      | .rasterize _ _ _ | .encode _ _ _ | .print _ _ _ =>
        { s with host := rest, inMem := Memory.ofBytes data }
      | _ => { s with host := rest })) ∧
    (∀ d, decode e = .error d → step s = .refused (.notAnEncoding d))

/-- When the host makes no step of its own, the step is the block's own: with no move, a wait, an
acknowledgement before DONE, or a request or an instruction presented outside IDLE. Such a move, other than
the waiting acknowledgement, is gone and has no other effect; in IDLE and in DONE the block holds. The spec
gives the steps (R132), that a request to a busy block has no effect (R135) and that the block stays in DONE
(R150); that an acknowledgement before DONE waits, that the other moves are dropped, and that a step with
nothing enabled leaves IDLE and DONE as they are, is the model's choice (log entry 12), and the moves wait
and operate are the model's own (log entry 7). -/
def Obligations.StepWithoutAHostStepIsTheBlocksOwn : Prop :=
  ∀ s : State,
    (s.host = [] → step s = blockStep s) ∧
    (∀ rest, s.host = .acknowledge :: rest → s.phase ≠ .done → step s = blockStep s) ∧
    (∀ rest, s.host = .wait :: rest → step s = blockStep { s with host := rest }) ∧
    (s.phase ≠ .idle →
      (∀ r data rest, s.host = .issue r data :: rest → step s = blockStep { s with host := rest }) ∧
      (∀ e data rest, s.host = .operate e data :: rest → step s = blockStep { s with host := rest })) ∧
    (s.phase = .idle ∨ s.phase = .done → blockStep s = .next s)

/-- The acceptance step (from R136) of an ENCODE, of a valid RASTERIZE or PRINT, and of one that fails the
check of the width or, with a valid width, the check of the length. That the request is presented and
accepted in one step is deduced (log entry 11). -/
def Obligations.AcceptStepLatchesTheRequest : Prop :=
  ∀ (s : State) (width len height n : Nat) (data : List Byte) (rest : List HostMove),
    s.phase = .idle →
    (s.host = .issue ⟨1, width, len, height⟩ data :: rest → step s = .next { s with
      host := rest, inMem := Memory.ofBytes data, op := 1, width := width, len := len,
      height := height, outLen := 0, acc := 0, b := 0, p := 0, idx := 0, h := height, npix := 0,
      phase := .pre }) ∧
    (width ≠ 0 → width % 8 = 0 → len = 4 * width * n →
      (s.host = .issue ⟨0, width, len, height⟩ data :: rest → step s = .next { s with
        host := rest, inMem := Memory.ofBytes data, op := 0, width := width, len := len,
        height := height, outLen := 0, acc := 0, b := 0, p := 0, idx := 0, h := n,
        npix := width * n, phase := .pix }) ∧
      (s.host = .issue ⟨2, width, len, height⟩ data :: rest → step s = .next { s with
        host := rest, inMem := Memory.ofBytes data, op := 2, width := width, len := len,
        height := height, outLen := 0, acc := 0, b := 0, p := 0, idx := 0, h := n,
        npix := width * n, phase := .pre })) ∧
    (∀ op : BitVec 2, (op = 0 ∨ op = 2) → s.host = .issue ⟨op, width, len, height⟩ data :: rest →
      (width = 0 ∨ width % 8 ≠ 0 → step s = .next { s with
        host := rest, inMem := Memory.ofBytes data, op := op, width := width, len := len,
        height := height, outLen := 0, acc := 0, b := 0, p := 0, idx := 0,
        status := 1, heightOut := 0, phase := .done }) ∧
      (width ≠ 0 → width % 8 = 0 → len % (4 * width) ≠ 0 → step s = .next { s with
        host := rest, inMem := Memory.ofBytes data, op := op, width := width, len := len,
        height := height, outLen := 0, acc := 0, b := 0, p := 0, idx := 0,
        status := 2, heightOut := 0, phase := .done }))

/-- A RASTERIZE or PRINT request that fails the check is finished after one step (from R149), with the code
of the first check it fails, height 0 and no byte; no byte of OUT is written, and `h` and `npix` are
left. That the one step is the presentation too is deduced (log entry 11). -/
def Obligations.FailedRequestEndsInOneStep : Prop :=
  ∀ (s : State) (r : Request) (e : Failure) (data : List Byte) (rest : List HostMove),
    s.phase = .idle → (r.op = 0 ∨ r.op = 2) → s.host = .issue r data :: rest →
    ((r.width = 0 ∨ r.width % 8 ≠ 0) ∧ e = .invalidWidth ∨
      r.width ≠ 0 ∧ r.width % 8 = 0 ∧ r.len % (4 * r.width) ≠ 0 ∧ e = .malformedPixelBuffer) →
    ∃ t, step s = .next t ∧ observe t = some ⟨e.code, 0, 0, []⟩ ∧ t.outMem = s.outMem ∧
      t.host = rest ∧ t.h = s.h ∧ t.npix = s.npix ∧
      (t.op, t.width, t.len, t.height) = (r.op, r.width, r.len, r.height)

/-- R137: the preamble steps, with the bytes of PREAMBLE (R134) written out. -/
def Obligations.PreambleStepEmitsOneByte : Prop :=
  ∀ (s : State) (v : Byte), s.phase = .pre →
    ([0x1B, 0x40, 0x0A, 0x1B, 0x53, 0x0A, 0x0A] : List Byte)[s.idx]? = some v →
    (s.idx = 6 → blockStep s = .next { s with
      outMem := s.outMem.write s.outLen v, outLen := s.outLen + 1, phase := .hdr, idx := 0 }) ∧
    (s.idx ≠ 6 → blockStep s = .next { s with
      outMem := s.outMem.write s.outLen v, outLen := s.outLen + 1, idx := s.idx + 1 })

/-- R138: the header steps; the header is that of the request's width and of `h` (R134). -/
def Obligations.HeaderStepEmitsOneByte : Prop :=
  ∀ (s : State) (v : Byte), s.phase = .hdr →
    (headerBytes Config.xhComputed s.width s.h)[s.idx]? = some v →
    (s.idx = 7 → blockStep s = .next { s with
      outMem := s.outMem.write s.outLen v, outLen := s.outLen + 1, idx := 0,
      phase := if s.op = 2 then .pix else .copy }) ∧
    (s.idx ≠ 7 → blockStep s = .next { s with
      outMem := s.outMem.write s.outLen v, outLen := s.outLen + 1, idx := s.idx + 1 })

/-- R142: a pixel step reads the four bytes of pixel `p`, thresholds and packs it, and counts it; when
all are counted the phase ends (R143). The field `k` is the model's own, log entry 6. -/
def Obligations.PixelStepThresholdsAndPacks : Prop :=
  ∀ s : State, s.phase = .pix →
    (∀ red green blue alpha : Byte, s.p < s.npix →
      s.inMem.read (4 * s.p) = some red → s.inMem.read (4 * s.p + 1) = some green →
      s.inMem.read (4 * s.p + 2) = some blue → s.inMem.read (4 * s.p + 3) = some alpha →
      blockStep s = .next { packStep (contribution red green blue alpha)
        { s with k := contribution red green blue alpha } with p := s.p + 1 }) ∧
    (s.p = s.npix → s.op = 0 →
      blockStep s = .next { s with status := 0, heightOut := s.h, phase := .done }) ∧
    (s.p = s.npix → s.op ≠ 0 → blockStep s = .next { s with phase := .trl })

/-- R145, R146, R147: the copy steps and the trailer, which completes (R148). -/
def Obligations.CopyAndTrailerSteps : Prop :=
  ∀ s : State,
    (∀ v, s.phase = .copy → s.idx < s.len → s.inMem.read s.idx = some v →
      blockStep s = .next { s with
        outMem := s.outMem.write s.outLen v, outLen := s.outLen + 1, idx := s.idx + 1 }) ∧
    (s.phase = .copy → s.idx = s.len → blockStep s = .next { s with phase := .trl }) ∧
    (s.phase = .trl → blockStep s = .next { s with
      outMem := s.outMem.write s.outLen 0x0A, outLen := s.outLen + 1,
      status := 0, heightOut := s.h, phase := .done })

/-- Where a counter lies outside the range its phase allows, no rule R136 to R147 enables a step and the block
stops by name (the model's choice, log entry 14; the invariant rules these states out). -/
def Obligations.NoEnabledStepStopsByName : Prop :=
  ∀ s : State,
    (s.phase = .pre → 7 ≤ s.idx → blockStep s = .fault (.noStepEnabled .pre)) ∧
    (s.phase = .hdr → 8 ≤ s.idx → blockStep s = .fault (.noStepEnabled .hdr)) ∧
    (s.phase = .pix → s.npix < s.p → blockStep s = .fault (.noStepEnabled .pix)) ∧
    (s.phase = .copy → s.len < s.idx → blockStep s = .fault (.noStepEnabled .copy))

/-- An accepted ENCODE whose data the host has supplied is done after exactly `18 + len` steps,
and leaves the state the function-level operation leaves, the registers included that the spec leaves open
after completion (log entry 13). The host holds: it makes no further move, or an acknowledgement waits
(log entry 12). The count takes the presentation and the acceptance as one step (log entry 11). -/
def Obligations.StepMachineRefinesEncode : Prop :=
  ∀ (s : State) (width len height : Nat) (data : List Byte) (rest : List HostMove),
    s.phase = .idle → s.host = .issue ⟨1, width, len, height⟩ data :: rest →
    hostHolds rest = true → len ≤ data.length →
    run (18 + len) s =
      exec (.encode width len height) { s with host := rest, inMem := Memory.ofBytes data }

/-- An accepted valid RASTERIZE is done after exactly `2 + npix` steps, and leaves the state the
function-level operation leaves (log entries 11, 12 and 13 as for ENCODE). -/
def Obligations.StepMachineRefinesRasterize : Prop :=
  ∀ (s : State) (width len height n : Nat) (data : List Byte) (rest : List HostMove),
    s.phase = .idle → s.host = .issue ⟨0, width, len, height⟩ data :: rest →
    hostHolds rest = true → len ≤ data.length →
    width ≠ 0 → width % 8 = 0 → len = 4 * width * n →
    run (2 + width * n) s =
      exec (.rasterize width len height) { s with host := rest, inMem := Memory.ofBytes data }

/-- An accepted valid PRINT is done after exactly `18 + npix` steps, and leaves the state the
function-level operation leaves (log entries 11, 12 and 13 as for ENCODE). -/
def Obligations.StepMachineRefinesPrint : Prop :=
  ∀ (s : State) (width len height n : Nat) (data : List Byte) (rest : List HostMove),
    s.phase = .idle → s.host = .issue ⟨2, width, len, height⟩ data :: rest →
    hostHolds rest = true → len ≤ data.length →
    width ≠ 0 → width % 8 = 0 → len = 4 * width * n →
    run (18 + width * n) s =
      exec (.print width len height) { s with host := rest, inMem := Memory.ofBytes data }

/-- From R151 and R152: whatever request is accepted, its operation is done after exactly the number of
steps R152 gives, and the host then observes what the function level says: the failure's code and no byte,
or status 0, the function's height and its byte string. Before that nothing is observable. The host holds:
that an acknowledgement which comes early waits is the model's choice (log entry 12), and that the
presentation and the acceptance are one step is deduced (log entry 11). -/
def Obligations.EveryRequestEndsAsTheFunctionSays : Prop :=
  ∀ (s : State) (r : Request) (data : List Byte) (rest : List HostMove),
    Inv s → s.phase = .idle → s.host = .issue r data :: rest → hostHolds rest = true →
    r.op ≠ 3 → r.len ≤ data.length →
    (∃ t, run (blockSteps r) s = .next t ∧ observe t = some (resultOf (functionLevel r (data.take r.len)))) ∧
    ∀ m, m < blockSteps r → observeOutcome (run m s) = none

/-! ### Reset, acknowledgement, waiting -/

/-- In DONE the block holds its state for as long as the host does not acknowledge (nor reset it); the
acknowledgement leads to IDLE, where nothing is observable (R150). That every other move (a request, a wait,
an instruction) is dropped is the model's choice (log entry 12); the moves wait and operate are the model's
own (log entry 7). -/
def Obligations.AcknowledgementLeadsToIdle : Prop :=
  ∀ s : State, s.phase = .done →
    (s.host = [] → step s = .next s) ∧
    (∀ m rest, s.host = m :: rest → m ≠ .acknowledge → m ≠ .reset →
      step s = .next { s with host := rest }) ∧
    (∀ rest, s.host = .acknowledge :: rest → ∃ t, step s = .next t ∧ t.phase = .idle ∧
      t.host = rest ∧ observe t = none)

/-- R182: the reset leads to IDLE from every phase: it aborts a running operation, and no result,
finished or not, is left to observe. -/
def Obligations.ResetLeadsToIdleFromEveryPhase : Prop :=
  ∀ (s : State) (rest : List HostMove), s.host = .reset :: rest →
    ∃ t, step s = .next t ∧ t.phase = .idle ∧ t.host = rest ∧ observe t = none

/-- The reset and the acknowledgement in DONE are the only ways back to IDLE (R181). -/
def Obligations.OnlyTheHostReturnsTheBlockToIdle : Prop :=
  ∀ s t : State, step s = .next t → s.phase ≠ .idle → t.phase = .idle →
    ∃ rest, s.host = .reset :: rest ∨ (s.phase = .done ∧ s.host = .acknowledge :: rest)

/-- After reset (R32, R180, R183) the block is in IDLE, OUT and IN hold nothing, nothing is
observable, and the first step accepts a request at once. Three clauses are the model's choices: that the
two spaces are empty (log entry 1), and that a step from the reset state keeps it, since no move stands in
`host`, so that nothing runs by itself (log entry 7), and a step with nothing enabled leaves the state as
it is (log entry 12). The other fields play no part here. -/
def Obligations.ResetStateIsIdleAndReady : Prop :=
  State.reset.phase = .idle ∧ State.reset.inMem = [] ∧ State.reset.outMem = [] ∧
  observe State.reset = none ∧ step State.reset = .next State.reset ∧
  (∀ (width len height : Nat) (data : List Byte), ∃ t,
    step { State.reset with host := [.issue ⟨1, width, len, height⟩ data] } = .next t ∧
      t.phase = .pre)

/-! ### Rules of the whole machine -/

/-- The phases of R28: without an instruction handed over whole, from a state of the invariant, a step
that changes the phase goes from one phase of the running operation to the next, or to IDLE. -/
def Obligations.PhasesFollowTheOperation : Prop :=
  ∀ s t : State, Inv s → (∀ m ∈ s.host, m.specified = true) → step s = .next t →
    t.phase ≠ s.phase → t.phase ≠ .idle → phaseMayFollow t.op s.phase t.phase = true

/-- IN changes only when a request is accepted in IDLE, and then becomes that request's data. From R41, which
speaks of the time from acceptance to completion; that IN stays over a reset and an acknowledgement too is
the model's choice (log entry 3), and an operation handed over whole (the model's own move, log entries 7
and 19) counts as a request. -/
def Obligations.InIsReadOnlyWhileRunning : Prop :=
  ∀ s t : State, step s = .next t →
    t.inMem = s.inMem ∨
    (s.phase = .idle ∧ ∃ r data rest, r.op ≠ 3 ∧
      (s.host = .issue r data :: rest ∨ s.host = .operate (.req r) data :: rest) ∧
      t.inMem = Memory.ofBytes data)

/-- OUT grows (R31, R48): while an operation runs and no reset comes, a step writes no byte of OUT or
exactly the one at `out_len`, and then advances `out_len` by one. -/
def Obligations.OutGrowsOneByteAtATime : Prop :=
  ∀ s t : State, s.phase ≠ .idle → s.phase ≠ .done → (∀ rest, s.host ≠ .reset :: rest) →
    step s = .next t →
    (t.outMem = s.outMem ∧ t.outLen = s.outLen) ∨
    (t.outLen = s.outLen + 1 ∧ (t.outMem.read s.outLen).isSome = true ∧
      ∀ a, a ≠ s.outLen → t.outMem.read a = s.outMem.read a)

/-- R49: in a state of the invariant a block step depends on no byte of IN at or beyond `len`, which
is `4 * npix` when pixels are read, and it writes no byte of OUT at or beyond the capacity of the
operation, nor at or beyond `16 + len`: those offsets read as before, and `out_len` passes neither. -/
def Obligations.BlockStaysWithinItsBounds : Prop :=
  ∀ (s t : State) (m : Memory), Inv s → s.phase ≠ .idle → s.phase ≠ .done →
    (∀ a, a < s.len → m.read a = s.inMem.read a) → blockStep s = .next t →
    blockStep { s with inMem := m } = .next { t with inMem := m } ∧
    (s.op ≠ 1 → 4 * s.npix = s.len) ∧ t.outLen ≤ 16 + s.len ∧
    t.outLen ≤ (if s.op = 0 then s.len / 32 else if s.op = 1 then 16 + s.len else 16 + s.len / 32) ∧
    (∀ a, 16 + s.len ≤ a → t.outMem.read a = s.outMem.read a) ∧
    (∀ a, (if s.op = 0 then s.len / 32 else if s.op = 1 then 16 + s.len else 16 + s.len / 32) ≤ a →
      t.outMem.read a = s.outMem.read a)

/-- The invariant of the machine holds right after reset (the registers' reset values, log entry 1,
play no part in it). -/
def Obligations.InvariantHoldsAtReset : Prop := Inv State.reset

/-- Every step keeps the invariant: the spaces stay in their canonical form, R103 and R104 hold of the
packer, `out_len` is what the phase says, and every byte below it has been written. -/
def Obligations.EveryStepKeepsTheInvariant : Prop :=
  ∀ s t : State, Inv s → step s = .next t → Inv t

/-- Nothing else fails (R170): with a host that keeps its obligations the machine never stops with a
fault or a refusal, and the obligations are met in the next state again. -/
def Obligations.AdmittedRunNeverStops : Prop :=
  ∀ s : State, Inv s → Supplied s → AdmittedHost s →
    ∃ t, step s = .next t ∧ Supplied t ∧ AdmittedHost t

/-- The widths of R6: no register ever needs more bits than its field has, for every width of the
fields, as long as the requests presented fit. (The free values of log entry 3 are cut to the
configured widths, so the fields have at least those.) -/
def Obligations.RegistersNeverOutgrowTheirFields : Prop :=
  ∀ (w l : Nat) (s t : State), Config.wBits ≤ w → Config.lenBits ≤ l → Inv s →
    (∀ m ∈ s.host, m.specified = true) →
    (∀ r data, .issue r data ∈ s.host → r.fitsIn w l = true) →
    RegistersFit w l s → step s = .next t → RegistersFit w l t

/-- No history is kept (from R21, R95 and R121): two blocks in IDLE given the same moves of the host are
observed to be the same after any number of steps, whatever their registers and spaces hold, IN of an
earlier request included. The moves may hand over instructions whole (the model's own move, log entries 7
and 19): an operation run this way depends on its own request and data alone too. Moves that are not enabled are
dropped or wait (log entry 12), the same in both. -/
def Obligations.NoHistoryIsKept : Prop :=
  ∀ (s t : State) (n : Nat), s.phase = .idle → t.phase = .idle → s.host = t.host →
    observeOutcome (run n s) = observeOutcome (run n t)

/-! ### Encodings (30_encoding.md) -/

/-- Decoding the encoding of a well-formed instruction gives it back, operands included. -/
def Obligations.DecodeOfEncodeIsTheInstruction : Prop :=
  ∀ i : Instr, i.wellFormed = true → decode (encode i) = .ok i

/-- A word has one meaning: what decodes to an instruction is the encoding of that instruction. -/
def Obligations.EncodeOfDecodeIsTheWord : Prop :=
  ∀ (e : Encoded) (i : Instr), decode e = .ok i → encode i = e

/-- R73: within the bounds of the header a command stream reads back: the width, the height and the
bitmap are recovered by the rule's formulas, and the reader of streams gives the five commands. -/
def Obligations.CommandStreamReadsBack : Prop :=
  ∀ (width height : Nat) (bitmap : List Byte),
    width % 8 = 0 → width < 2048 → height < 65536 → bitmap.length = width / 8 * height →
    let s := encodeRasterCommand bitmap width height
    let columns := (s.getD 11 0).toNat + 256 * (s.getD 12 0).toNat
    let rows := (s.getD 13 0).toNat + 256 * (s.getD 14 0).toNat
    width = 8 * columns ∧ height = rows ∧ bitmap = (s.drop 15).take (columns * rows) ∧
    s.length = 16 + columns * rows ∧ s[15 + columns * rows]? = some 0x0A ∧
    decodeStream 5 s = .ok [.init, .stdmode, .lf, .raster width height bitmap, .lf]

/-- Words written out from the spec's encodings (R61 to R67) decode to the instructions they stand
for, and words that are none are refused by name. -/
def Obligations.WordsDecodeAsTheSpecWritesThem : Prop :=
  decodeTableWord 8 0b00 = some (.rasterize 0 0 0) ∧
  decodeTableWord 8 0b01 = some (.encode 0 0 0) ∧
  decodeTableWord 8 0b10 = some (.print 0 0 0) ∧
  decodeTableWord 8 0b11 = some (.reservedOp3 0 0 0) ∧
  decodeTableWord 32 0x0CAF04FF = some (.thresh 12 175 4 255) ∧
  decode (.packed [0xCA]) = .ok (.pack true true false false true false true false) ∧
  decodeTableWord 24 0b000110110100000000001010 = some .init ∧
  decodeTableWord 24 0b000110110101001100001010 = some .stdmode ∧
  decodeTableWord 8 0b00001010 = some .lf ∧
  decode (.cmd [0x1D, 0x76, 0x30, 0x30, 0x01, 0x00, 0x02, 0x00, 0xAA, 0x0A]) =
    .ok (.raster 8 2 [0xAA, 0x0A]) ∧
  decode (.cmd [0x1D, 0x76, 0x31, 0x30, 0, 0, 0, 0]) = .error .unknownCommand ∧
  decode (.cmd [0x0A, 0x0A]) = .error .trailingBytes

/-- R70, R71: the parts of a command stream stand at their offsets. -/
def Obligations.CommandStreamLayout : Prop :=
  ∀ (bitmap : List Byte) (width height : Nat),
    let s := encodeRasterCommandWith false bitmap width height
    s.length = 16 + bitmap.length ∧
    s.take 15 = [0x1B, 0x40, 0x0A, 0x1B, 0x53, 0x0A, 0x0A, 0x1D, 0x76, 0x30, 0x30,
      BitVec.ofNat 8 (width / 8), 0x00, BitVec.ofNat 8 height, BitVec.ofNat 8 (height / 256)] ∧
    (∀ i, i < bitmap.length → s[15 + i]? = bitmap[i]?) ∧
    s[15 + bitmap.length]? = some 0x0A
end

