-- ==== Sys2Proof/Laws/Memory.lean ====
section
/-! SUPPORT. The laws of the byte spaces: read after write, the canonical form, runs of bytes. -/

namespace Sys2Proof.Machine

@[simp] theorem Memory.read_nil (x : Nat) : Memory.read [] x = none := rfl

theorem Memory.read_write_same (m : Memory) (x : Nat) (v : Byte) : (m.write x v).read x = some v := by
  induction m with
  | nil => simp [Memory.write, Memory.read]
  | cons c m ih =>
    obtain ⟨a, w⟩ := c
    unfold Memory.write
    split
    · simp [Memory.read]
    · split
      · simp [Memory.read]
      · rename_i h
        simpa [Memory.read, h] using ih

theorem Memory.read_write_other (m : Memory) {x y : Nat} (v : Byte) (h : y ≠ x) :
    (m.write x v).read y = m.read y := by
  induction m with
  | nil => simp [Memory.write, Memory.read, h]
  | cons c m ih =>
    obtain ⟨a, w⟩ := c
    unfold Memory.write
    split
    · simp [Memory.read, h]
    · split
      · rename_i hxa
        subst hxa
        simp [Memory.read, h]
      · simp only [Memory.read, ih]

theorem Memory.read_write (m : Memory) (x y : Nat) (v : Byte) :
    (m.write x v).read y = if y = x then some v else m.read y := by
  split
  · rename_i h; subst h; exact m.read_write_same _ v
  · exact m.read_write_other v ‹_›

theorem Memory.write_fst_mem (m : Memory) (x : Nat) (v : Byte) :
    ∀ a ∈ (m.write x v).map Prod.fst, a = x ∨ a ∈ m.map Prod.fst := by
  induction m with
  | nil => simp [Memory.write]
  | cons c m ih =>
    obtain ⟨a, w⟩ := c
    unfold Memory.write
    split
    · simp
    · split
      · rename_i h; subst h; simp
      · intro y hy
        simp only [List.map_cons, List.mem_cons] at hy ⊢
        rcases hy with rfl | hy
        · exact .inr (.inl rfl)
        · rcases ih y hy with rfl | h
          · exact .inl rfl
          · exact .inr (.inr h)

/-- A write keeps the canonical form. -/
theorem Memory.write_wf {m : Memory} (h : m.wf) (x : Nat) (v : Byte) : (m.write x v).wf := by
  induction m with
  | nil => simp [Memory.write, Memory.wf]
  | cons c m ih =>
    obtain ⟨a, w⟩ := c
    have h' := h
    simp only [Memory.wf, List.map_cons, List.pairwise_cons] at h'
    unfold Memory.write
    split
    · rename_i hx
      simp only [Memory.wf, List.map_cons, List.pairwise_cons, List.mem_cons]
      refine ⟨?_, h'⟩
      rintro b (rfl | hb)
      · exact hx
      · exact Nat.lt_trans hx (h'.1 b hb)
    · split
      · rename_i hx; subst hx; exact h
      · rename_i hlt hne
        simp only [Memory.wf, List.map_cons, List.pairwise_cons]
        refine ⟨fun b hb => ?_, ih h'.2⟩
        rcases Memory.write_fst_mem m x v b hb with rfl | hb
        · omega
        · exact h'.1 b hb

theorem Memory.ofBytesAt_fst (vs : List Byte) (n : Nat) :
    ∀ a ∈ (Memory.ofBytesAt n vs).map Prod.fst, n ≤ a := by
  induction vs generalizing n with
  | nil => simp [Memory.ofBytesAt]
  | cons v vs ih =>
    intro a ha
    simp only [Memory.ofBytesAt, List.map_cons, List.mem_cons] at ha
    rcases ha with rfl | ha
    · exact Nat.le_refl _
    · have := ih (n + 1) a ha; omega

/-- A byte string is in the canonical form. -/
theorem Memory.ofBytesAt_wf (vs : List Byte) (n : Nat) : (Memory.ofBytesAt n vs).wf := by
  induction vs generalizing n with
  | nil => simp [Memory.ofBytesAt, Memory.wf]
  | cons v vs ih =>
    simp only [Memory.wf, Memory.ofBytesAt, List.map_cons, List.pairwise_cons]
    exact ⟨fun a ha => Memory.ofBytesAt_fst vs (n + 1) a ha, ih (n + 1)⟩

theorem Memory.ofBytes_wf (vs : List Byte) : (Memory.ofBytes vs).wf := Memory.ofBytesAt_wf vs 0

theorem Memory.ofBytesAt_read (vs : List Byte) (n x : Nat) :
    (Memory.ofBytesAt n vs).read x = if x < n then none else vs[x - n]? := by
  induction vs generalizing n with
  | nil => simp [Memory.ofBytesAt]
  | cons v vs ih =>
    simp only [Memory.ofBytesAt, Memory.read, ih]
    by_cases hx : x = n
    · subst hx; simp
    · by_cases hlt : x < n
      · simp [hx, hlt, Nat.lt_succ_of_lt hlt]
      · obtain ⟨d, rfl⟩ : ∃ d, x = n + 1 + d := ⟨x - n - 1, by omega⟩
        rw [if_neg hx, if_neg (by omega), if_neg hlt]
        rw [show n + 1 + d - n = d + 1 by omega, show n + 1 + d - (n + 1) = d by omega]
        rfl

/-- The IN space of a request reads as the request's data. -/
theorem Memory.ofBytes_read (vs : List Byte) (x : Nat) : (Memory.ofBytes vs).read x = vs[x]? := by
  simp [Memory.ofBytes, Memory.ofBytesAt_read]

theorem Memory.readBytes_zero (m : Memory) (start : Nat) : m.readBytes start 0 = some [] := rfl

/-- A run of bytes is read exactly when each of its bytes is. -/
theorem Memory.readBytes_eq_some {m : Memory} {start n : Nat} {vs : List Byte} :
    m.readBytes start n = some vs ↔ vs.length = n ∧ ∀ i, i < n → m.read (start + i) = vs[i]? := by
  induction n generalizing start vs with
  | zero =>
    constructor
    · intro h; simp only [Memory.readBytes, Option.some.injEq] at h; subst h; simp
    · rintro ⟨h, -⟩; rw [List.length_eq_zero_iff] at h; subst h; rfl
  | succ n ih =>
    unfold Memory.readBytes
    constructor
    · intro h
      cases hv : m.read start with
      | none => simp [hv] at h
      | some v =>
        cases hr : m.readBytes (start + 1) n with
        | none => simp [hv, hr] at h
        | some ws =>
          simp only [hv, hr, Option.some.injEq] at h
          subst h
          obtain ⟨hl, hrd⟩ := ih.1 hr
          refine ⟨by simp [hl], fun i hi => ?_⟩
          cases i with
          | zero => simpa using hv
          | succ i =>
            have := hrd i (by omega)
            rw [show start + (i + 1) = start + 1 + i by omega, this]
            rfl
    · rintro ⟨hl, hrd⟩
      cases vs with
      | nil => simp at hl
      | cons v ws =>
        have h0 := hrd 0 (by omega)
        simp only [Nat.add_zero, List.getElem?_cons_zero] at h0
        have hr : m.readBytes (start + 1) n = some ws := by
          refine ih.2 ⟨by simpa using hl, fun i hi => ?_⟩
          have := hrd (i + 1) (by omega)
          rw [show start + 1 + i = start + (i + 1) by omega, this]
          rfl
        simp [h0, hr]

theorem Memory.readBytes_length {m : Memory} {start n : Nat} {vs : List Byte}
    (h : m.readBytes start n = some vs) : vs.length = n := (Memory.readBytes_eq_some.1 h).1

/-- A run of bytes is there exactly when every byte of it is. -/
theorem Memory.readBytes_exists {m : Memory} {start n : Nat} :
    (∃ vs, m.readBytes start n = some vs) ↔ ∀ i, i < n → (m.read (start + i)).isSome = true := by
  constructor
  · rintro ⟨vs, h⟩ i hi
    obtain ⟨hl, hr⟩ := Memory.readBytes_eq_some.1 h
    rw [hr i hi, List.getElem?_eq_getElem (by omega)]
    rfl
  · induction n generalizing start with
    | zero => exact fun _ => ⟨[], rfl⟩
    | succ n ih =>
      intro h
      obtain ⟨v, hv⟩ := Option.isSome_iff_exists.1 (h 0 (by omega))
      obtain ⟨vs, hvs⟩ := ih (start := start + 1) fun i hi => by
        have := h (i + 1) (by omega)
        rwa [show start + (i + 1) = start + 1 + i by omega] at this
      rw [Nat.add_zero] at hv
      exact ⟨v :: vs, by simp [Memory.readBytes, hv, hvs]⟩

/-- The data of a request reads back from its IN space. -/
theorem Memory.ofBytes_readBytes (vs : List Byte) (n : Nat) (h : n ≤ vs.length) :
    (Memory.ofBytes vs).readBytes 0 n = some (vs.take n) := by
  refine Memory.readBytes_eq_some.2 ⟨by simp [h], fun i hi => ?_⟩
  rw [Nat.zero_add, Memory.ofBytes_read, List.getElem?_take_of_lt hi]

end Sys2Proof.Machine
end

