-- ==== Sys2Proof/Laws/State.lean ====
section
/-! SUPPORT. One lemma per field per named update of the state. -/

namespace Sys2Proof.Machine

@[simp] theorem emit_phase (v : Byte) (s : State) : (emit v s).phase = s.phase := rfl
@[simp] theorem emit_op (v : Byte) (s : State) : (emit v s).op = s.op := rfl
@[simp] theorem emit_width (v : Byte) (s : State) : (emit v s).width = s.width := rfl
@[simp] theorem emit_len (v : Byte) (s : State) : (emit v s).len = s.len := rfl
@[simp] theorem emit_height (v : Byte) (s : State) : (emit v s).height = s.height := rfl
@[simp] theorem emit_acc (v : Byte) (s : State) : (emit v s).acc = s.acc := rfl
@[simp] theorem emit_b (v : Byte) (s : State) : (emit v s).b = s.b := rfl
@[simp] theorem emit_p (v : Byte) (s : State) : (emit v s).p = s.p := rfl
@[simp] theorem emit_h (v : Byte) (s : State) : (emit v s).h = s.h := rfl
@[simp] theorem emit_npix (v : Byte) (s : State) : (emit v s).npix = s.npix := rfl
@[simp] theorem emit_idx (v : Byte) (s : State) : (emit v s).idx = s.idx := rfl
@[simp] theorem emit_k (v : Byte) (s : State) : (emit v s).k = s.k := rfl
@[simp] theorem emit_status (v : Byte) (s : State) : (emit v s).status = s.status := rfl
@[simp] theorem emit_heightOut (v : Byte) (s : State) : (emit v s).heightOut = s.heightOut := rfl
@[simp] theorem emit_outLen (v : Byte) (s : State) : (emit v s).outLen = s.outLen + 1 := rfl
@[simp] theorem emit_inMem (v : Byte) (s : State) : (emit v s).inMem = s.inMem := rfl
@[simp] theorem emit_outMem (v : Byte) (s : State) : (emit v s).outMem = s.outMem.write s.outLen v := rfl
@[simp] theorem emit_host (v : Byte) (s : State) : (emit v s).host = s.host := rfl
@[simp] theorem emit_draws (v : Byte) (s : State) : (emit v s).draws = s.draws := rfl

@[simp] theorem latch_phase (r : Request) (s : State) : (latch r s).phase = s.phase := rfl
@[simp] theorem latch_op (r : Request) (s : State) : (latch r s).op = r.op := rfl
@[simp] theorem latch_width (r : Request) (s : State) : (latch r s).width = r.width := rfl
@[simp] theorem latch_len (r : Request) (s : State) : (latch r s).len = r.len := rfl
@[simp] theorem latch_height (r : Request) (s : State) : (latch r s).height = r.height := rfl
@[simp] theorem latch_acc (r : Request) (s : State) : (latch r s).acc = 0 := rfl
@[simp] theorem latch_b (r : Request) (s : State) : (latch r s).b = 0 := rfl
@[simp] theorem latch_p (r : Request) (s : State) : (latch r s).p = 0 := rfl
@[simp] theorem latch_h (r : Request) (s : State) : (latch r s).h = s.h := rfl
@[simp] theorem latch_npix (r : Request) (s : State) : (latch r s).npix = s.npix := rfl
@[simp] theorem latch_idx (r : Request) (s : State) : (latch r s).idx = 0 := rfl
@[simp] theorem latch_k (r : Request) (s : State) : (latch r s).k = s.k := rfl
@[simp] theorem latch_status (r : Request) (s : State) : (latch r s).status = s.status := rfl
@[simp] theorem latch_heightOut (r : Request) (s : State) : (latch r s).heightOut = s.heightOut := rfl
@[simp] theorem latch_outLen (r : Request) (s : State) : (latch r s).outLen = 0 := rfl
@[simp] theorem latch_inMem (r : Request) (s : State) : (latch r s).inMem = s.inMem := rfl
@[simp] theorem latch_outMem (r : Request) (s : State) : (latch r s).outMem = s.outMem := rfl
@[simp] theorem latch_host (r : Request) (s : State) : (latch r s).host = s.host := rfl
@[simp] theorem latch_draws (r : Request) (s : State) : (latch r s).draws = s.draws := rfl

@[simp] theorem complete_phase (n : Nat) (s : State) : (complete n s).phase = .done := rfl
@[simp] theorem complete_op (n : Nat) (s : State) : (complete n s).op = s.op := rfl
@[simp] theorem complete_width (n : Nat) (s : State) : (complete n s).width = s.width := rfl
@[simp] theorem complete_len (n : Nat) (s : State) : (complete n s).len = s.len := rfl
@[simp] theorem complete_height (n : Nat) (s : State) : (complete n s).height = s.height := rfl
@[simp] theorem complete_acc (n : Nat) (s : State) : (complete n s).acc = s.acc := rfl
@[simp] theorem complete_b (n : Nat) (s : State) : (complete n s).b = s.b := rfl
@[simp] theorem complete_p (n : Nat) (s : State) : (complete n s).p = s.p := rfl
@[simp] theorem complete_h (n : Nat) (s : State) : (complete n s).h = s.h := rfl
@[simp] theorem complete_npix (n : Nat) (s : State) : (complete n s).npix = s.npix := rfl
@[simp] theorem complete_idx (n : Nat) (s : State) : (complete n s).idx = s.idx := rfl
@[simp] theorem complete_k (n : Nat) (s : State) : (complete n s).k = s.k := rfl
@[simp] theorem complete_status (n : Nat) (s : State) : (complete n s).status = 0 := rfl
@[simp] theorem complete_heightOut (n : Nat) (s : State) : (complete n s).heightOut = n := rfl
@[simp] theorem complete_outLen (n : Nat) (s : State) : (complete n s).outLen = s.outLen := rfl
@[simp] theorem complete_inMem (n : Nat) (s : State) : (complete n s).inMem = s.inMem := rfl
@[simp] theorem complete_outMem (n : Nat) (s : State) : (complete n s).outMem = s.outMem := rfl
@[simp] theorem complete_host (n : Nat) (s : State) : (complete n s).host = s.host := rfl
@[simp] theorem complete_draws (n : Nat) (s : State) : (complete n s).draws = s.draws := rfl

@[simp] theorem raise_phase (e : Failure) (s : State) : (raise e s).phase = .done := rfl
@[simp] theorem raise_op (e : Failure) (s : State) : (raise e s).op = s.op := rfl
@[simp] theorem raise_width (e : Failure) (s : State) : (raise e s).width = s.width := rfl
@[simp] theorem raise_len (e : Failure) (s : State) : (raise e s).len = s.len := rfl
@[simp] theorem raise_height (e : Failure) (s : State) : (raise e s).height = s.height := rfl
@[simp] theorem raise_acc (e : Failure) (s : State) : (raise e s).acc = s.acc := rfl
@[simp] theorem raise_b (e : Failure) (s : State) : (raise e s).b = s.b := rfl
@[simp] theorem raise_p (e : Failure) (s : State) : (raise e s).p = s.p := rfl
@[simp] theorem raise_h (e : Failure) (s : State) : (raise e s).h = s.h := rfl
@[simp] theorem raise_npix (e : Failure) (s : State) : (raise e s).npix = s.npix := rfl
@[simp] theorem raise_idx (e : Failure) (s : State) : (raise e s).idx = s.idx := rfl
@[simp] theorem raise_k (e : Failure) (s : State) : (raise e s).k = s.k := rfl
@[simp] theorem raise_status (e : Failure) (s : State) : (raise e s).status = e.code := rfl
@[simp] theorem raise_heightOut (e : Failure) (s : State) : (raise e s).heightOut = 0 := rfl
@[simp] theorem raise_outLen (e : Failure) (s : State) : (raise e s).outLen = 0 := rfl
@[simp] theorem raise_inMem (e : Failure) (s : State) : (raise e s).inMem = s.inMem := rfl
@[simp] theorem raise_outMem (e : Failure) (s : State) : (raise e s).outMem = s.outMem := rfl
@[simp] theorem raise_host (e : Failure) (s : State) : (raise e s).host = s.host := rfl
@[simp] theorem raise_draws (e : Failure) (s : State) : (raise e s).draws = s.draws := rfl

@[simp] theorem pixelsDone_phase (px : List Byte) (n : Nat) (s : State) : (pixelsDone px n s).phase = s.phase := rfl
@[simp] theorem pixelsDone_op (px : List Byte) (n : Nat) (s : State) : (pixelsDone px n s).op = s.op := rfl
@[simp] theorem pixelsDone_width (px : List Byte) (n : Nat) (s : State) : (pixelsDone px n s).width = s.width := rfl
@[simp] theorem pixelsDone_len (px : List Byte) (n : Nat) (s : State) : (pixelsDone px n s).len = s.len := rfl
@[simp] theorem pixelsDone_height (px : List Byte) (n : Nat) (s : State) : (pixelsDone px n s).height = s.height := rfl
@[simp] theorem pixelsDone_acc (px : List Byte) (n : Nat) (s : State) : (pixelsDone px n s).acc = s.acc := rfl
@[simp] theorem pixelsDone_b (px : List Byte) (n : Nat) (s : State) : (pixelsDone px n s).b = s.b := rfl
@[simp] theorem pixelsDone_p (px : List Byte) (n : Nat) (s : State) : (pixelsDone px n s).p = px.length / 4 := rfl
@[simp] theorem pixelsDone_h (px : List Byte) (n : Nat) (s : State) : (pixelsDone px n s).h = n := rfl
@[simp] theorem pixelsDone_npix (px : List Byte) (n : Nat) (s : State) : (pixelsDone px n s).npix = px.length / 4 := rfl
@[simp] theorem pixelsDone_idx (px : List Byte) (n : Nat) (s : State) : (pixelsDone px n s).idx = s.idx := rfl
@[simp] theorem pixelsDone_k (px : List Byte) (n : Nat) (s : State) : (pixelsDone px n s).k = (contributions px).getLastD s.k := rfl
@[simp] theorem pixelsDone_status (px : List Byte) (n : Nat) (s : State) : (pixelsDone px n s).status = s.status := rfl
@[simp] theorem pixelsDone_heightOut (px : List Byte) (n : Nat) (s : State) : (pixelsDone px n s).heightOut = s.heightOut := rfl
@[simp] theorem pixelsDone_outLen (px : List Byte) (n : Nat) (s : State) : (pixelsDone px n s).outLen = s.outLen := rfl
@[simp] theorem pixelsDone_inMem (px : List Byte) (n : Nat) (s : State) : (pixelsDone px n s).inMem = s.inMem := rfl
@[simp] theorem pixelsDone_outMem (px : List Byte) (n : Nat) (s : State) : (pixelsDone px n s).outMem = s.outMem := rfl
@[simp] theorem pixelsDone_host (px : List Byte) (n : Nat) (s : State) : (pixelsDone px n s).host = s.host := rfl
@[simp] theorem pixelsDone_draws (px : List Byte) (n : Nat) (s : State) : (pixelsDone px n s).draws = s.draws := rfl

@[simp] theorem copyDone_phase (len n : Nat) (s : State) : (copyDone len n s).phase = s.phase := rfl
@[simp] theorem copyDone_op (len n : Nat) (s : State) : (copyDone len n s).op = s.op := rfl
@[simp] theorem copyDone_width (len n : Nat) (s : State) : (copyDone len n s).width = s.width := rfl
@[simp] theorem copyDone_len (len n : Nat) (s : State) : (copyDone len n s).len = s.len := rfl
@[simp] theorem copyDone_height (len n : Nat) (s : State) : (copyDone len n s).height = s.height := rfl
@[simp] theorem copyDone_acc (len n : Nat) (s : State) : (copyDone len n s).acc = s.acc := rfl
@[simp] theorem copyDone_b (len n : Nat) (s : State) : (copyDone len n s).b = s.b := rfl
@[simp] theorem copyDone_p (len n : Nat) (s : State) : (copyDone len n s).p = s.p := rfl
@[simp] theorem copyDone_h (len n : Nat) (s : State) : (copyDone len n s).h = n := rfl
@[simp] theorem copyDone_npix (len n : Nat) (s : State) : (copyDone len n s).npix = 0 := rfl
@[simp] theorem copyDone_idx (len n : Nat) (s : State) : (copyDone len n s).idx = len := rfl
@[simp] theorem copyDone_k (len n : Nat) (s : State) : (copyDone len n s).k = s.k := rfl
@[simp] theorem copyDone_status (len n : Nat) (s : State) : (copyDone len n s).status = s.status := rfl
@[simp] theorem copyDone_heightOut (len n : Nat) (s : State) : (copyDone len n s).heightOut = s.heightOut := rfl
@[simp] theorem copyDone_outLen (len n : Nat) (s : State) : (copyDone len n s).outLen = s.outLen := rfl
@[simp] theorem copyDone_inMem (len n : Nat) (s : State) : (copyDone len n s).inMem = s.inMem := rfl
@[simp] theorem copyDone_outMem (len n : Nat) (s : State) : (copyDone len n s).outMem = s.outMem := rfl
@[simp] theorem copyDone_host (len n : Nat) (s : State) : (copyDone len n s).host = s.host := rfl
@[simp] theorem copyDone_draws (len n : Nat) (s : State) : (copyDone len n s).draws = s.draws := rfl

@[simp] theorem toIdle_phase (s : State) : (toIdle s).phase = .idle := rfl
@[simp] theorem toIdle_inMem (s : State) : (toIdle s).inMem = s.inMem := rfl
@[simp] theorem toIdle_outMem (s : State) : (toIdle s).outMem = [] := rfl
@[simp] theorem toIdle_host (s : State) : (toIdle s).host = s.host := rfl
@[simp] theorem toIdle_draws (s : State) : (toIdle s).draws = s.draws + 1 := rfl

end Sys2Proof.Machine
end

