-- ==== Sys2Proof/Laws/Ops.lean ====
section
/-! SUPPORT. What the shared operations do: emitting a byte string, the request check, the
observation. -/

namespace Sys2Proof.Machine

/-- The OUT space after a byte string is written from an offset on. -/
def writeAll : List Byte → Nat → Memory → Memory
  | [], _, m      => m
  | v :: vs, a, m => writeAll vs (a + 1) (m.write a v)

/-- Emitting a byte string writes OUT from `out_len` on, advances `out_len`, and does nothing else. -/
theorem emitAll_eq (vs : List Byte) (s : State) :
    emitAll vs s = { s with
      outMem := writeAll vs s.outLen s.outMem, outLen := s.outLen + vs.length } := by
  induction vs generalizing s with
  | nil => rfl
  | cons v vs ih =>
    simp only [emitAll, ih, emit, writeAll, List.length_cons, Nat.add_assoc, Nat.add_comm 1]

theorem emitAll_append (xs ys : List Byte) (s : State) :
    emitAll (xs ++ ys) s = emitAll ys (emitAll xs s) := by
  induction xs generalizing s with
  | nil => rfl
  | cons x xs ih => exact ih (emit x s)

theorem writeAll_append (xs ys : List Byte) (a : Nat) (m : Memory) :
    writeAll (xs ++ ys) a m = writeAll ys (a + xs.length) (writeAll xs a m) := by
  induction xs generalizing a m with
  | nil => rfl
  | cons x xs ih =>
    simp only [List.cons_append, writeAll, ih, List.length_cons, Nat.add_assoc, Nat.add_comm 1]

theorem writeAll_wf {m : Memory} (h : m.wf) (vs : List Byte) (a : Nat) : (writeAll vs a m).wf := by
  induction vs generalizing a m with
  | nil => exact h
  | cons v vs ih => exact ih (Memory.write_wf h a v) (a + 1)

theorem writeAll_read (vs : List Byte) (a x : Nat) (m : Memory) :
    (writeAll vs a m).read x = if x < a ∨ a + vs.length ≤ x then m.read x else vs[x - a]? := by
  induction vs generalizing a m with
  | nil =>
    simp only [writeAll, List.length_nil, Nat.add_zero]
    rw [if_pos (by omega)]
  | cons v vs ih =>
    simp only [writeAll, ih, List.length_cons, Memory.read_write]
    by_cases hx : x = a
    · subst hx
      rw [if_pos (by omega), if_pos rfl, if_neg (by omega)]
      simp
    · by_cases hr : x < a ∨ a + (vs.length + 1) ≤ x
      · rw [if_pos (by omega), if_neg hx, if_pos hr]
      · rw [if_neg (by omega), if_neg hr]
        obtain ⟨d, rfl⟩ : ∃ d, x = a + 1 + d := ⟨x - a - 1, by omega⟩
        rw [show a + 1 + d - a = d + 1 by omega, show a + 1 + d - (a + 1) = d by omega]
        rfl

theorem emitAll_outLen (vs : List Byte) (s : State) :
    (emitAll vs s).outLen = s.outLen + vs.length := by rw [emitAll_eq]

/-- The bytes just emitted read back. -/
theorem emitAll_readBytes (vs : List Byte) (s : State) :
    (emitAll vs s).outMem.readBytes s.outLen vs.length = some vs := by
  rw [emitAll_eq]
  refine Memory.readBytes_eq_some.2 ⟨rfl, fun i hi => ?_⟩
  simp only [writeAll_read]
  rw [if_neg (by omega)]
  congr 1
  omega

/-- A pixel request passes the check exactly when its width is a positive multiple of 8 and its length
a multiple of `4*width`. -/
theorem checkRequest_ok {width len height : Nat} :
    checkRequest width len = .ok height ↔
      width ≠ 0 ∧ width % 8 = 0 ∧ len = 4 * width * height := by
  unfold checkRequest
  split
  · simp; omega
  · split
    · rename_i h1 h2
      simp only [reduceCtorEq, false_iff, not_and]
      rintro - - rfl
      exact h2 (Nat.mul_mod_right _ _)
    · rename_i h1 h2
      simp only [Except.ok.injEq]
      have hd : len = 4 * width * (len / (4 * width)) :=
        (Nat.mul_div_cancel' (Nat.dvd_of_mod_eq_zero (by omega))).symm
      constructor
      · rintro rfl; exact ⟨by omega, by omega, hd⟩
      · rintro ⟨h0, -, hl⟩
        have : 0 < 4 * width := by omega
        rw [hl, Nat.mul_div_cancel_left _ this]

theorem checkRequest_invalidWidth {width len : Nat} :
    checkRequest width len = .error .invalidWidth ↔ width = 0 ∨ width % 8 ≠ 0 := by
  unfold checkRequest
  split
  · simp_all
  · split <;> simp_all

theorem checkRequest_malformed {width len : Nat} :
    checkRequest width len = .error .malformedPixelBuffer ↔
      width ≠ 0 ∧ width % 8 = 0 ∧ len % (4 * width) ≠ 0 := by
  unfold checkRequest
  split
  · simp; omega
  · split
    · simp_all
    · simp_all

/-- The observation of a state in DONE whose result bytes are `vs`. -/
theorem observe_done {s : State} {vs : List Byte} (hp : s.phase = .done)
    (h : s.outMem.readBytes 0 s.outLen = some vs) :
    observe s = some ⟨s.status, s.heightOut, s.outLen, vs⟩ := by
  simp [observe, hp, h]

end Sys2Proof.Machine
end

