-- ==== Sys2Proof/Laws/PerInstr.lean ====
section
/-! SUPPORT. A statement of every instruction as syntax: how many bytes its encoding has
(spec/30_encoding.md R60 to R72). -/

namespace Sys2Proof.Laws

/-- The number of bytes of an encoded instruction; format REQ has no byte layout (R60). -/
def byteCount : Encoded → Option Nat
  | .req _        => none
  | .pixel bytes  => some bytes.length
  | .packed bytes => some bytes.length
  | .cmd bytes    => some bytes.length

/-- The number of bytes the tables of 30_encoding.md give the instruction. -/
def tableBytes : Instr → Option Nat
  | .rasterize _ _ _        => none
  | .encode _ _ _           => none
  | .print _ _ _            => none
  | .reservedOp3 _ _ _      => none
  | .thresh _ _ _ _         => some 4
  | .pack _ _ _ _ _ _ _ _  => some 1
  | .init                   => some 3
  | .stdmode                => some 3
  | .lf                     => some 1
  | .raster _ _ bitmap      => some (8 + bitmap.length)

/-- The encoding has the length the tables give. -/
def EncodingLength.Statement (i : Instr) : Prop := byteCount (encode i) = tableBytes i

theorem EncodingLength.rasterize (width len height : Nat) :
    EncodingLength.Statement (.rasterize width len height) := rfl
theorem EncodingLength.encode (width len height : Nat) :
    EncodingLength.Statement (.encode width len height) := rfl
theorem EncodingLength.print (width len height : Nat) :
    EncodingLength.Statement (.print width len height) := rfl
theorem EncodingLength.reservedOp3 (width len height : Nat) :
    EncodingLength.Statement (.reservedOp3 width len height) := rfl
theorem EncodingLength.thresh (red green blue alpha : Byte) :
    EncodingLength.Statement (.thresh red green blue alpha) := rfl
theorem EncodingLength.pack (k0 k1 k2 k3 k4 k5 k6 k7 : Bool) :
    EncodingLength.Statement (.pack k0 k1 k2 k3 k4 k5 k6 k7) := rfl
theorem EncodingLength.init : EncodingLength.Statement .init := rfl
theorem EncodingLength.stdmode : EncodingLength.Statement .stdmode := rfl
theorem EncodingLength.lf : EncodingLength.Statement .lf := rfl
theorem EncodingLength.raster (width height : Nat) (bitmap : List Byte) :
    EncodingLength.Statement (.raster width height bitmap) := by
  simp [EncodingLength.Statement, byteCount, tableBytes, Sys2Proof.encode, headerBytes, rasterTag, sizeBytes]
  omega

end Sys2Proof.Laws
end

