-- ==== Sys2Proof/Laws/Pixels.lean ====
section
/-! SUPPORT. The pixels, the contributions and the packed bytes of a PixelBuffer. -/

namespace Sys2Proof.Machine

/-- When a pixel is ink. -/
theorem contribution_iff (red green blue alpha : Byte) :
    contribution red green blue alpha = true ↔
      127 ≤ alpha.toNat ∧ scaledLuminance red green blue < 1280000 := by
  unfold contribution
  split
  · simp; omega
  · rw [decide_eq_true_iff]; omega

theorem contributions_length (px : List Byte) : (contributions px).length = px.length / 4 := by
  fun_induction contributions px with
  | case1 r g b a rest ih => simp only [List.length_cons, ih]; omega
  | case2 px h =>
    rcases px with _ | ⟨_, _ | ⟨_, _ | ⟨_, _ | ⟨_, _⟩⟩⟩⟩
    all_goals first | exact (h _ _ _ _ _ rfl).elim | simp

theorem packBits_length (ks : List Bool) : (packBits ks).length = ks.length / 8 := by
  fun_induction packBits ks with
  | case1 k0 k1 k2 k3 k4 k5 k6 k7 rest ih => simp only [List.length_cons, ih]; omega
  | case2 ks h =>
    rcases ks with _ | ⟨_, _ | ⟨_, _ | ⟨_, _ | ⟨_, _ | ⟨_, _ | ⟨_, _ | ⟨_, _ | ⟨_, _⟩⟩⟩⟩⟩⟩⟩⟩
    all_goals first | exact (h _ _ _ _ _ _ _ _ _ rfl).elim | simp

theorem bitmapOf_length (px : List Byte) : (bitmapOf px).length = px.length / 32 := by
  rw [bitmapOf, packBits_length, contributions_length]; omega

/-- Contribution `p` is THRESH of the four bytes from `4*p` on. -/
theorem contributions_getElem? (px : List Byte) (p : Nat) (h : p < px.length / 4) :
    (contributions px)[p]? = some (contribution (px.getD (4 * p) 0) (px.getD (4 * p + 1) 0)
      (px.getD (4 * p + 2) 0) (px.getD (4 * p + 3) 0)) := by
  fun_induction contributions px generalizing p with
  | case1 r g b a rest ih =>
    cases p with
    | zero => rfl
    | succ p =>
      rw [List.getElem?_cons_succ, ih p (by simp only [List.length_cons] at h; omega)]
      rfl
  | case2 px hn =>
    rcases px with _ | ⟨_, _ | ⟨_, _ | ⟨_, _ | ⟨_, _⟩⟩⟩⟩
    all_goals first | exact (hn _ _ _ _ _ rfl).elim | simp at h

/-- Byte `j` of the packed bytes is PACK8 of the contributions from `8*j` on. -/
theorem packBits_getElem? (ks : List Bool) (j : Nat) (h : j < ks.length / 8) :
    (packBits ks)[j]? = some (pack8
      (ks.getD (8 * j) false) (ks.getD (8 * j + 1) false) (ks.getD (8 * j + 2) false)
      (ks.getD (8 * j + 3) false) (ks.getD (8 * j + 4) false) (ks.getD (8 * j + 5) false)
      (ks.getD (8 * j + 6) false) (ks.getD (8 * j + 7) false)) := by
  fun_induction packBits ks generalizing j with
  | case1 k0 k1 k2 k3 k4 k5 k6 k7 rest ih =>
    cases j with
    | zero => rfl
    | succ j =>
      rw [List.getElem?_cons_succ, ih j (by simp only [List.length_cons] at h; omega)]
      rfl
  | case2 ks hn =>
    rcases ks with _ | ⟨_, _ | ⟨_, _ | ⟨_, _ | ⟨_, _ | ⟨_, _ | ⟨_, _ | ⟨_, _ | ⟨_, _⟩⟩⟩⟩⟩⟩⟩⟩
    all_goals first | exact (hn _ _ _ _ _ _ _ _ _ rfl).elim | simp at h

/-- Bit `7 - b` of PACK8 is contribution `b`. -/
theorem pack8_getLsbD (k0 k1 k2 k3 k4 k5 k6 k7 : Bool) (b : Fin 8) :
    (pack8 k0 k1 k2 k3 k4 k5 k6 k7).getLsbD (7 - b) =
      [k0, k1, k2, k3, k4, k5, k6, k7].getD b false := by
  revert k0 k1 k2 k3 k4 k5 k6 k7 b; decide

/-- Bit `7 - b` of byte `j` of a bitmap is the contribution of pixel `8*j + b`. -/
theorem bitmapOf_getLsbD (px : List Byte) (j b : Nat) (hj : j < px.length / 32) (hb : b < 8) :
    ((bitmapOf px).getD j 0).getLsbD (7 - b) = contribution
      (px.getD (4 * (8 * j + b)) 0) (px.getD (4 * (8 * j + b) + 1) 0)
      (px.getD (4 * (8 * j + b) + 2) 0) (px.getD (4 * (8 * j + b) + 3) 0) := by
  have hk : (contributions px).getD (8 * j + b) false = contribution
      (px.getD (4 * (8 * j + b)) 0) (px.getD (4 * (8 * j + b) + 1) 0)
      (px.getD (4 * (8 * j + b) + 2) 0) (px.getD (4 * (8 * j + b) + 3) 0) := by
    rw [List.getD_eq_getElem?_getD, contributions_getElem? px _ (by omega)]
    rfl
  rw [List.getD_eq_getElem?_getD, bitmapOf,
    packBits_getElem? _ j (by rw [contributions_length]; omega), Option.getD_some, ← hk]
  have := pack8_getLsbD ((contributions px).getD (8 * j) false)
    ((contributions px).getD (8 * j + 1) false) ((contributions px).getD (8 * j + 2) false)
    ((contributions px).getD (8 * j + 3) false) ((contributions px).getD (8 * j + 4) false)
    ((contributions px).getD (8 * j + 5) false) ((contributions px).getD (8 * j + 6) false)
    ((contributions px).getD (8 * j + 7) false) ⟨b, hb⟩
  rw [this]
  interval_cases b <;> rfl

theorem packStep_emit {k : Bool} {s : State} (h : s.b = 7) :
    packStep k s = { emit (if k then s.acc + BitVec.ofNat 8 (2 ^ (7 - s.b.toNat)) else s.acc) s with
      acc := 0, b := 0 } := by
  simp only [packStep, if_pos h]

theorem packStep_merge {k : Bool} {s : State} (h : s.b ≠ 7) :
    packStep k s = { s with
      acc := if k then s.acc + BitVec.ofNat 8 (2 ^ (7 - s.b.toNat)) else s.acc, b := s.b + 1 } := by
  simp only [packStep, if_neg h]

/-- Everything a streaming step of the packer can do. -/
theorem packStep_cases (k : Bool) (s : State) :
    ∃ acc b om ol, packStep k s = { s with acc := acc, b := b, outMem := om, outLen := ol } ∧
      b = s.b + 1 ∧
      ((s.b = 7 ∧ acc = 0 ∧ ol = s.outLen + 1 ∧ ∃ v, om = s.outMem.write s.outLen v) ∨
       (s.b ≠ 7 ∧ ol = s.outLen ∧ om = s.outMem)) := by
  by_cases h : s.b = 7
  · rw [packStep_emit h]
    exact ⟨0, 0, _, _, rfl, by rw [h]; rfl, .inl ⟨h, rfl, rfl, _, rfl⟩⟩
  · rw [packStep_merge h]
    exact ⟨_, _, _, _, rfl, rfl, .inr ⟨h, rfl, rfl⟩⟩

/-- The accumulator after merging a contribution at bit position `b`. -/
def mergeAt (k : Bool) (b : Nat) (acc : Byte) : Byte :=
  if k then acc + BitVec.ofNat 8 (2 ^ (7 - b)) else acc

theorem mergeAt_eight (k0 k1 k2 k3 k4 k5 k6 k7 : Bool) :
    mergeAt k7 7 (mergeAt k6 6 (mergeAt k5 5 (mergeAt k4 4 (mergeAt k3 3 (mergeAt k2 2
      (mergeAt k1 1 (mergeAt k0 0 0))))))) = pack8 k0 k1 k2 k3 k4 k5 k6 k7 := by
  revert k0 k1 k2 k3 k4 k5 k6 k7; decide

/-- Eight streaming steps from an empty accumulator emit PACK8 of the eight contributions (R102). -/
theorem packStep_eight (k0 k1 k2 k3 k4 k5 k6 k7 : Bool) {s : State} (ha : s.acc = 0) (hb : s.b = 0) :
    packStep k7 (packStep k6 (packStep k5 (packStep k4 (packStep k3 (packStep k2
      (packStep k1 (packStep k0 s))))))) = emit (pack8 k0 k1 k2 k3 k4 k5 k6 k7) s := by
  have step (n : BitVec 3) (k : Bool) (a : Byte) (h : n ≠ 7) :
      packStep k { s with acc := a, b := n } =
        { s with acc := mergeAt k n.toNat a, b := n + 1 } := packStep_merge h
  have last (k : Bool) (a : Byte) : packStep k { s with acc := a, b := 7 } =
      { emit (mergeAt k 7 a) s with acc := 0, b := 0 } :=
    packStep_emit (s := { s with acc := a, b := 7 }) rfl
  have h0 : s = { s with acc := 0, b := 0 } := by
    cases s; simp only at ha hb; subst ha; subst hb; rfl
  conv => lhs; rw [h0]
  rw [step 0 k0 _ (by decide), show ((0 : BitVec 3) + 1) = 1 from rfl, step 1 k1 _ (by decide),
    show ((1 : BitVec 3) + 1) = 2 from rfl, step 2 k2 _ (by decide),
    show ((2 : BitVec 3) + 1) = 3 from rfl, step 3 k3 _ (by decide),
    show ((3 : BitVec 3) + 1) = 4 from rfl, step 4 k4 _ (by decide),
    show ((4 : BitVec 3) + 1) = 5 from rfl, step 5 k5 _ (by decide),
    show ((5 : BitVec 3) + 1) = 6 from rfl, step 6 k6 _ (by decide),
    show ((6 : BitVec 3) + 1) = 7 from rfl, last]
  rw [← mergeAt_eight]
  conv => rhs; rw [h0]
  rfl

end Sys2Proof.Machine
end

