-- ==== Sys2Proof/Laws/Step.lean ====
section
/-! SUPPORT. What a step can do, said once: the block steps and the steps of the whole machine as
relations, one constructor for each rule, and that every next state is related. -/

namespace Sys2Proof.Machine

theorem readPixel_eq_some {m : Memory} {p : Nat} {red green blue alpha : Byte} :
    readPixel m p = some (red, green, blue, alpha) ↔
      m.read (4 * p) = some red ∧ m.read (4 * p + 1) = some green ∧
      m.read (4 * p + 2) = some blue ∧ m.read (4 * p + 3) = some alpha := by
  unfold readPixel
  constructor
  · intro h
    split at h
    · rename_i hr
      simp only [Option.some.injEq, Prod.mk.injEq] at h
      obtain ⟨rfl, rfl, rfl, rfl⟩ := h
      obtain ⟨-, hr⟩ := Memory.readBytes_eq_some.1 hr
      exact ⟨hr 0 (by omega), hr 1 (by omega), hr 2 (by omega), hr 3 (by omega)⟩
    · cases h
  · rintro ⟨h0, h1, h2, h3⟩
    have : m.readBytes (4 * p) 4 = some [red, green, blue, alpha] := by
      simp [Memory.readBytes, h0, h1, h2, h3]
    simp [this]

/-- The block steps that answer a next state, one constructor for each case of R137 to R147. -/
inductive BlockStep (s : State) : State → Prop
  | hold (h : s.phase = .idle ∨ s.phase = .done) : BlockStep s s
  | pre (v : Byte) (h : s.phase = .pre) (hv : preamble[s.idx]? = some v) (hi : s.idx ≠ 6) :
      BlockStep s { emit v s with idx := s.idx + 1 }
  | preEnd (v : Byte) (h : s.phase = .pre) (hv : preamble[s.idx]? = some v) (hi : s.idx = 6) :
      BlockStep s { emit v s with phase := .hdr, idx := 0 }
  | hdr (v : Byte) (h : s.phase = .hdr)
      (hv : (headerBytes Config.xhComputed s.width s.h)[s.idx]? = some v) (hi : s.idx ≠ 7) :
      BlockStep s { emit v s with idx := s.idx + 1 }
  | hdrEnd (v : Byte) (h : s.phase = .hdr)
      (hv : (headerBytes Config.xhComputed s.width s.h)[s.idx]? = some v) (hi : s.idx = 7) :
      BlockStep s { emit v s with idx := 0, phase := if s.op = 2 then .pix else .copy }
  | pixel (red green blue alpha : Byte) (h : s.phase = .pix) (hp : s.p < s.npix)
      (hr : readPixel s.inMem s.p = some (red, green, blue, alpha)) :
      BlockStep s { packStep (contribution red green blue alpha)
        { s with k := contribution red green blue alpha } with p := s.p + 1 }
  | pixComplete (h : s.phase = .pix) (hp : s.p = s.npix) (ho : s.op = 0) :
      BlockStep s (complete s.h s)
  | pixEnd (h : s.phase = .pix) (hp : s.p = s.npix) (ho : s.op ≠ 0) :
      BlockStep s { s with phase := .trl }
  | copy (v : Byte) (h : s.phase = .copy) (hi : s.idx < s.len) (hv : s.inMem.read s.idx = some v) :
      BlockStep s { emit v s with idx := s.idx + 1 }
  | copyEnd (h : s.phase = .copy) (hi : s.idx = s.len) : BlockStep s { s with phase := .trl }
  | trl (h : s.phase = .trl) : BlockStep s (complete s.h (emit 0x0A s))

/-- Every next state of a block step is one of those. -/
theorem blockStep_inv {s t : State} (h : blockStep s = .next t) : BlockStep s t := by
  unfold blockStep at h
  split at h
  · injection h with h; subst h; exact .hold (.inl ‹_›)
  · unfold preStep at h
    split at h
    · cases h
    · split at h <;> injection h with h <;> subst h
      · exact .preEnd _ ‹_› ‹_› ‹_›
      · exact .pre _ ‹_› ‹_› ‹_›
  · unfold hdrStep at h
    split at h
    · cases h
    · split at h <;> injection h with h <;> subst h
      · exact .hdrEnd _ ‹_› ‹_› ‹_›
      · exact .hdr _ ‹_› ‹_› ‹_›
  · unfold pixStep at h
    split at h
    · split at h
      · cases h
      · injection h with h; subst h; exact .pixel _ _ _ _ ‹_› ‹_› ‹_›
    · split at h
      · split at h <;> injection h with h <;> subst h
        · exact .pixComplete ‹_› ‹_› ‹_›
        · exact .pixEnd ‹_› ‹_› ‹_›
      · cases h
  · unfold copyStep at h
    split at h
    · split at h
      · cases h
      · injection h with h; subst h; exact .copy _ ‹_› ‹_› ‹_›
    · split at h
      · injection h with h; subst h; exact .copyEnd ‹_› ‹_›
      · cases h
  · injection h with h; subst h; exact .trl ‹_›
  · injection h with h; subst h; exact .hold (.inr ‹_›)

/-- A block step that answers a next state, computed. -/
theorem blockStep_of {s t : State} (h : BlockStep s t) : blockStep s = .next t := by
  cases h with
  | hold h => rcases h with h | h <;> simp [blockStep, h]
  | pre v h hv hi => simp only [blockStep, h, preStep, hv, if_neg hi]
  | preEnd v h hv hi => simp only [blockStep, h, preStep, hv, if_pos hi]
  | hdr v h hv hi => simp only [blockStep, h, hdrStep, hv, if_neg hi]
  | hdrEnd v h hv hi => simp only [blockStep, h, hdrStep, hv, if_pos hi]
  | pixel r g b a h hp hr => simp only [blockStep, h, pixStep, if_pos hp, hr]
  | pixComplete h hp ho => simp [blockStep, h, pixStep, hp, ho]
  | pixEnd h hp ho => simp only [blockStep, h, pixStep, hp, if_neg (Nat.lt_irrefl _), if_neg ho, if_true]
  | copy v h hi hv => simp only [blockStep, h, copyStep, if_pos hi, hv]
  | copyEnd h hi => simp [blockStep, h, copyStep, hi]
  | trl h => simp only [blockStep, h]; rfl

/-- Everything the data handed over with an instruction can do: IN becomes it if the instruction is an
operation, and nothing changes otherwise. -/
theorem supplyData_cases (e : Encoded) (data : List Byte) (s : State) :
    (∃ r, e = .req r ∧ r.op ≠ 3 ∧ supplyData e data s = { s with inMem := Memory.ofBytes data }) ∨
    ((∀ r, e = .req r → r.op = 3) ∧ supplyData e data s = s) := by
  cases e with
  | req r =>
    by_cases h : r.op = 3
    · exact .inr ⟨by rintro _ ⟨⟩; exact h, if_pos h⟩
    · exact .inl ⟨r, rfl, h, if_neg h⟩
  | pixel | packed | cmd => exact .inr ⟨by rintro _ ⟨⟩, rfl⟩

@[simp] theorem supplyData_phase (e : Encoded) (data : List Byte) (s : State) :
    (supplyData e data s).phase = s.phase := by
  rcases supplyData_cases e data s with ⟨_, _, _, h⟩ | ⟨_, h⟩ <;> rw [h]

/-- The steps of the machine that answer a next state: an instruction run whole, the host's three
moves, or a block step, for which the host's next move is gone or waits (R132, R135, R150, R180). -/
inductive MachineStep (s : State) : State → Prop
  | operate (e : Encoded) (data : List Byte) (rest : List HostMove) (i : Instr) (t : State)
      (h : s.phase = .idle) (hh : s.host = .operate e data :: rest) (hd : decode e = .ok i)
      (he : exec i (supplyData e data { s with host := rest }) = .next t) : MachineStep s t
  | reset (rest : List HostMove) (hh : s.host = .reset :: rest) :
      MachineStep s (toIdle { s with host := rest })
  | acknowledge (rest : List HostMove) (h : s.phase = .done) (hh : s.host = .acknowledge :: rest) :
      MachineStep s (toIdle { s with host := rest })
  | issue (r : Request) (data : List Byte) (rest : List HostMove) (h : s.phase = .idle)
      (hh : s.host = .issue r data :: rest) : MachineStep s (offer r data { s with host := rest })
  | block (rest : List HostMove) (t : State) (hr : rest = s.host ∨ ∃ m, s.host = m :: rest)
      (hb : BlockStep { s with host := rest } t) : MachineStep s t

/-- Every next state of the machine is one of those. -/
theorem step_inv {s t : State} (h : step s = .next t) : MachineStep s t := by
  unfold step at h
  split at h
  · rename_i hf
    unfold fetch at hf
    split at hf
    · rename_i hp hh
      simp only [Option.some.injEq, Prod.mk.injEq] at hf
      obtain ⟨rfl, rfl⟩ := hf
      split at h
      · exact .operate _ _ _ _ _ hp hh ‹_› h
      · cases h
    · cases hf
  · unfold machineStep at h
    split at h
    · exact .block s.host t (.inl rfl) (blockStep_inv h)
    · exact .block _ t (.inr ⟨_, ‹_›⟩) (blockStep_inv h)
    · injection h with h; subst h; exact .reset _ ‹_›
    · split at h
      · injection h with h; subst h; exact .issue _ _ _ ‹_› ‹_›
      · exact .block _ t (.inr ⟨_, ‹_›⟩) (blockStep_inv h)
    · split at h
      · injection h with h; subst h; exact .acknowledge _ ‹_› ‹_›
      · exact .block s.host t (.inl rfl) (blockStep_inv h)
    · exact .block _ t (.inr ⟨_, ‹_›⟩) (blockStep_inv h)

/-- Everything an offered request can do: the reserved code changes nothing; an ENCODE and a valid
pixel request enter their first phase; an invalid pixel request fails. -/
theorem offer_cases (r : Request) (data : List Byte) (s : State) :
    (r.op = 3 ∧ offer r data s = s) ∨
    (r.op = 1 ∧ offer r data s = { latch r { s with inMem := Memory.ofBytes data } with
      h := r.height, npix := 0, phase := .pre }) ∨
    ((r.op = 0 ∨ r.op = 2) ∧
      ((∃ e, checkRequest r.width r.len = .error e ∧
        offer r data s = raise e (latch r { s with inMem := Memory.ofBytes data })) ∨
       (∃ n, checkRequest r.width r.len = .ok n ∧
        offer r data s = { latch r { s with inMem := Memory.ofBytes data } with
          h := n, npix := r.len / 4, phase := if r.op = 0 then .pix else .pre }))) := by
  have hop : r.op = 3 ∨ r.op = 1 ∨ r.op = 0 ∨ r.op = 2 := by
    generalize r.op = op; revert op; decide
  rcases hop with h | h | h
  · exact .inl ⟨h, by simp [offer, h]⟩
  · exact .inr (.inl ⟨h, by simp [offer, accept, h]⟩)
  · refine .inr (.inr ⟨h, ?_⟩)
    cases hc : checkRequest r.width r.len with
    | error e => exact .inl ⟨e, rfl, by rcases h with h | h <;> simp [offer, accept, h, hc]⟩
    | ok n => exact .inr ⟨n, rfl, by rcases h with h | h <;> simp [offer, accept, h, hc]⟩

/-- Everything RASTERIZE and PRINT can do in IDLE when they answer a next state. -/
theorem pixelOperation_inv {f : List Byte → Nat → Except Failure (List Byte × Nat)} {r : Request}
    {s t : State} (hp : s.phase = .idle) (h : pixelOperation f r s = .next t) :
    (∃ e, checkRequest r.width r.len = .error e ∧ t = raise e (latch r s)) ∨
    (∃ n pixels, checkRequest r.width r.len = .ok n ∧ s.inMem.readBytes 0 r.len = some pixels ∧
      ((∃ e, f pixels r.width = .error e ∧ t = raise e (latch r s)) ∨
       ∃ m bytes, f pixels r.width = .ok (bytes, m) ∧
        t = complete m (emitAll bytes (pixelsDone pixels m (latch r s))))) := by
  unfold pixelOperation at h
  rw [if_neg (by simp [hp])] at h
  split at h
  · injection h with h; exact .inl ⟨_, ‹_›, h.symm⟩
  · split at h
    · cases h
    · refine .inr ⟨_, _, ‹_›, ‹_›, ?_⟩
      split at h
      · injection h with h; exact .inl ⟨_, ‹_›, h.symm⟩
      · injection h with h; exact .inr ⟨_, _, ‹_›, h.symm⟩

/-- Everything ENCODE can do in IDLE when it answers a next state. -/
theorem execEncode_inv {width len height : Nat} {s t : State} (hp : s.phase = .idle)
    (h : execEncode width len height s = .next t) :
    ∃ bitmap, s.inMem.readBytes 0 len = some bitmap ∧
      t = complete height (emitAll (encodeRasterCommand bitmap width height)
        (copyDone len height (latch ⟨1, width, len, height⟩ s))) := by
  unfold execEncode readData at h
  rw [if_neg (by simp [hp])] at h
  split at h
  · cases h
  · injection h with h; exact ⟨_, ‹_›, h.symm⟩

theorem rasterize_ok {pixels bitmap : List Byte} {width n : Nat} :
    rasterize pixels width = .ok (bitmap, n) ↔
      checkRequest width pixels.length = .ok n ∧ bitmap = bitmapOf pixels := by
  unfold rasterize
  split
  · rename_i h; simp [h]
  · rename_i h
    simp only [h, Except.ok.injEq, Prod.mk.injEq]
    exact ⟨fun ⟨a, b⟩ => ⟨b, a.symm⟩, fun ⟨a, b⟩ => ⟨b.symm, a⟩⟩

theorem print_ok {pixels bytes : List Byte} {width n : Nat} :
    print pixels width = .ok (bytes, n) ↔ checkRequest width pixels.length = .ok n ∧
      bytes = encodeRasterCommand (bitmapOf pixels) width n := by
  unfold print rasterize
  cases checkRequest width pixels.length with
  | error e => simp
  | ok m =>
    simp only [Except.ok.injEq, Prod.mk.injEq]
    constructor
    · rintro ⟨rfl, rfl⟩; exact ⟨rfl, rfl⟩
    · rintro ⟨rfl, rfl⟩; exact ⟨rfl, rfl⟩

/-- The header in full. -/
theorem headerBytes_eq (xhComputed : Bool) (width height : Nat) :
    headerBytes xhComputed width height = [0x1D, 0x76, 0x30, 0x30, BitVec.ofNat 8 (width / 8),
      if xhComputed then BitVec.ofNat 8 (width / 2048) else 0,
      BitVec.ofNat 8 height, BitVec.ofNat 8 (height / 256)] := by
  simp [headerBytes, rasterTag, sizeBytes, xHigh, lowByte, Nat.shiftRight_eq_div_pow]

theorem encodeRasterCommand_length (bitmap : List Byte) (width height : Nat) :
    (encodeRasterCommand bitmap width height).length = 16 + bitmap.length := by
  simp only [encodeRasterCommand, encodeRasterCommandWith, headerBytes_eq, preamble, initBytes,
    stdmodeBytes, lfBytes, List.length_append, List.length_cons, List.length_nil]
  omega

/-- The streaming step of the packer does not touch the other registers. -/
theorem packStep_frame (k : Bool) (s : State) : packStep k s = { s with
    acc := (packStep k s).acc, b := (packStep k s).b, outMem := (packStep k s).outMem,
    outLen := (packStep k s).outLen } := by
  obtain ⟨acc, b, om, ol, h, -⟩ := packStep_cases k s
  rw [h]

end Sys2Proof.Machine
end

