-- ==== Sys2Proof/Tests/Slice0.lean ====
section
/-! SUPPORT. Tests: what WellFormed refuses, words written out from spec/30_encoding.md, one step or one
operation per vector of spec/95_test_vectors.md, and a witness for the hypotheses of each statement. -/

namespace Sys2Proof.Tests

open Sys2Proof.Machine

/-! ### Small states -/

/-- IDLE, with the bytes of IN given. -/
def holding (data : List Byte) : State := { State.reset with inMem := Memory.ofBytes data }

/-- IDLE, with one request presented. -/
def offering (r : Request) (data : List Byte) : State := { State.reset with host := [.issue r data] }

/-- A phase with the host silent. -/
def atPhase (ph : Phase) : State := { State.reset with phase := ph }

/-- `n` pixels of one value. -/
def pixels (n : Nat) (red green blue alpha : Byte) : List Byte :=
  (List.replicate n [red, green, blue, alpha]).flatten

/-- Eight opaque black pixels. -/
def black8 : List Byte := pixels 8 0 0 0 255

/-- The eight pixels of vector T-Z15. -/
def pixelsCA : List Byte :=
  pixels 2 0 0 0 255 ++ pixels 2 255 255 255 255 ++ pixels 1 0 0 0 255 ++ pixels 1 255 255 255 255 ++
    pixels 1 0 0 0 255 ++ pixels 1 255 255 255 255

/-- What the host observes after an instruction run in IDLE on the given IN. -/
def result (i : Instr) (data : List Byte) : Option Observation := observeOutcome (exec i (holding data))

/-! ### WellFormed refuses an ill-formed term for each check, and takes one at the bound -/

theorem test_wellFormed_width : (Instr.rasterize 65536 0 0).wellFormed = false ∧
    (Instr.rasterize 65535 0 0).wellFormed = true := by decide
theorem test_wellFormed_len : (Instr.encode 8 4294967280 0).wellFormed = false ∧
    (Instr.encode 8 4294967279 0).wellFormed = true := by decide
theorem test_wellFormed_height : (Instr.print 8 0 4294967296).wellFormed = false ∧
    (Instr.reservedOp3 8 0 4294967296).wellFormed = false ∧
    (Instr.print 8 0 4294967295).wellFormed = true := by decide
theorem test_wellFormed_raster_width : (Instr.raster 12 1 [0]).wellFormed = false ∧
    (Instr.raster 8 1 [0]).wellFormed = true := by decide
theorem test_wellFormed_raster_ceiling : (Instr.raster 2048 0 []).wellFormed = false ∧
    (Instr.raster 2040 0 []).wellFormed = true := by decide
theorem test_wellFormed_raster_height : (Instr.raster 0 65536 []).wellFormed = false ∧
    (Instr.raster 0 65535 []).wellFormed = true := by decide
theorem test_wellFormed_raster_payload : (Instr.raster 8 2 [0]).wellFormed = false ∧
    (Instr.raster 8 2 [0, 0]).wellFormed = true := by decide

/-! ### Decoding: words written out from 30_encoding.md (R61 to R67) -/

theorem test_decode_op_codes :
    decode (.req ⟨0b00, 16, 128, 7⟩) = .ok (.rasterize 16 128 7) ∧
    decode (.req ⟨0b01, 16, 4, 2⟩) = .ok (.encode 16 4 2) ∧
    decode (.req ⟨0b10, 16, 128, 7⟩) = .ok (.print 16 128 7) ∧
    decode (.req ⟨0b11, 1, 2, 3⟩) = .ok (.reservedOp3 1 2 3) := by decide
theorem test_decode_pixel : decodeTableWord 32 0xFF67027E = some (.thresh 255 103 2 126) := by decide
theorem test_decode_packed :
    decodeTableWord 8 0b10011010 = some (.pack true false false true true false true false) := by decide
theorem test_decode_init : decodeTableWord 24 0x1B400A = some .init := by decide
theorem test_decode_stdmode : decodeTableWord 24 0x1B530A = some .stdmode := by decide
theorem test_decode_lf : decode (.cmd [0x0A]) = .ok .lf := by decide
theorem test_decode_raster : decodeTableWord 64 0x1D76303002000100 = some (.raster 16 1 [0, 0]) := by decide
theorem test_decode_payload_is_raw :
    decode (.cmd [0x1D, 0x76, 0x30, 0x30, 1, 0, 3, 0, 0x1B, 0x40, 0x0A]) =
      .ok (.raster 8 3 [0x1B, 0x40, 0x0A]) := by decide
theorem test_decode_rejects :
    decode (.pixel [0, 0, 0]) = .error .pixelLength ∧
    decode (.packed []) = .error .packedLength ∧
    decode (.cmd [0x1B, 0x45, 0x0A]) = .error .unknownCommand ∧
    decode (.cmd [0x1D, 0x76, 0x30, 0x30, 1, 0, 3]) = .error .rasterSizesShort ∧
    decode (.cmd [0x1D, 0x76, 0x30, 0x30, 1, 1, 0, 0]) = .error .rasterHighByte ∧
    decode (.cmd [0x1D, 0x76, 0x30, 0x30, 1, 0, 2, 0, 0xAA]) = .error .payloadShort ∧
    decode (.cmd [0x0A, 0x1B]) = .error .trailingBytes := by decide

/-! ### One instruction each, from 95_test_vectors.md -/

/-- T-T3, T-T4, T-T5, T-T6, T-T21, T-T22, T-T24. -/
theorem test_thresh_boundaries :
    contribution 127 127 127 255 = true ∧ contribution 128 128 128 255 = false ∧
    contribution 0 0 0 126 = false ∧ contribution 0 0 0 127 = true ∧
    contribution 255 103 1 255 = true ∧ contribution 255 103 2 255 = false ∧
    contribution 12 175 4 255 = false := by decide
/-- T-T18: green alone, the last ink level. -/
theorem test_thresh_writes_k :
    (nextState (exec (.thresh 0 178 0 255) State.reset)).map (·.k) = some true := by decide
/-- T-P1, T-P2, T-P5, T-P6. -/
theorem test_pack8_bit_order :
    pack8 true false false false false false false false = 0x80 ∧
    pack8 false false false false false false false true = 0x01 ∧
    pack8 true true false false true false true false = 0xCA ∧
    pack8 true false false true true false true false = 0x9A := by decide
theorem test_pack_emits :
    (nextState (exec (.pack true true false false true false true false) State.reset)).map
      (fun t => (t.outMem, t.outLen)) = some ([(0, 0xCA)], 1) := by decide
theorem test_init_bytes : (nextState (exec .init State.reset)).map (fun t => (t.outMem, t.outLen)) =
    some ([(0, 0x1B), (1, 0x40), (2, 0x0A)], 3) := by decide
theorem test_stdmode_bytes : (nextState (exec .stdmode { State.reset with outLen := 3 })).map
    (fun t => (t.outMem, t.outLen)) = some ([(3, 0x1B), (4, 0x53), (5, 0x0A)], 6) := by decide
theorem test_lf_byte : (nextState (exec .lf { State.reset with outLen := 6 })).map
    (fun t => (t.outMem, t.outLen)) = some ([(6, 0x0A)], 7) := by decide
/-- T-H2, T-H6, T-H7, T-H8, T-H10; T-H9 with XH_COMPUTED. -/
theorem test_header_bytes :
    headerBytes false 576 300 = [0x1D, 0x76, 0x30, 0x30, 0x48, 0x00, 0x2C, 0x01] ∧
    headerBytes false 2040 65535 = [0x1D, 0x76, 0x30, 0x30, 0xFF, 0x00, 0xFF, 0xFF] ∧
    headerBytes false 2048 65536 = [0x1D, 0x76, 0x30, 0x30, 0x00, 0x00, 0x00, 0x00] ∧
    headerBytes false 2056 70000 = [0x1D, 0x76, 0x30, 0x30, 0x01, 0x00, 0x70, 0x11] ∧
    headerBytes false 12 3 = [0x1D, 0x76, 0x30, 0x30, 0x01, 0x00, 0x03, 0x00] ∧
    headerBytes true 4112 513 = [0x1D, 0x76, 0x30, 0x30, 0x02, 0x02, 0x01, 0x02] := by decide
theorem test_raster_payload : (nextState (exec (.raster 8 1 [0x0A]) State.reset)).map (·.outMem) =
    some [(0, 0x1D), (1, 0x76), (2, 0x30), (3, 0x30), (4, 1), (5, 0), (6, 1), (7, 0), (8, 0x0A)] := by decide
/-- T-Z1, T-Z3, T-Z15. -/
theorem test_rasterize_results :
    result (.rasterize 8 32 0) black8 = some ⟨0, 1, 1, [0xFF]⟩ ∧
    result (.rasterize 8 0 0) [] = some ⟨0, 0, 0, []⟩ ∧
    result (.rasterize 8 32 0) pixelsCA = some ⟨0, 1, 1, [0xCA]⟩ := by decide
/-- T-Z5, T-Z6, T-Z7, T-Z8, T-Z9. -/
theorem test_rasterize_failures :
    result (.rasterize 7 31 0) [] = some ⟨1, 0, 0, []⟩ ∧ result (.rasterize 8 31 0) [] = some ⟨2, 0, 0, []⟩ ∧
    result (.rasterize 0 32 0) [] = some ⟨1, 0, 0, []⟩ ∧ result (.rasterize 16 32 0) [] = some ⟨2, 0, 0, []⟩ ∧
    result (.rasterize 12 0 0) [] = some ⟨1, 0, 0, []⟩ := by decide
/-- T-E3. -/
theorem test_encode_result : result (.encode 16 4 2) [0x9A, 0x80, 0xAA, 0x55] = some ⟨0, 2, 20,
    [0x1B, 0x40, 0x0A, 0x1B, 0x53, 0x0A, 0x0A, 0x1D, 0x76, 0x30, 0x30, 0x02, 0x00, 0x02, 0x00,
      0x9A, 0x80, 0xAA, 0x55, 0x0A]⟩ := by decide
/-- T-E4: inconsistent and beyond the ceiling. -/
theorem test_encode_wraps : result (.encode 2048 2 65537) [0xAA, 0x0A] = some ⟨0, 65537, 18,
    [0x1B, 0x40, 0x0A, 0x1B, 0x53, 0x0A, 0x0A, 0x1D, 0x76, 0x30, 0x30, 0x00, 0x00, 0x01, 0x00,
      0xAA, 0x0A, 0x0A]⟩ := by decide
/-- T-X1. -/
theorem test_print_result : result (.print 8 32 0) black8 = some ⟨0, 1, 17,
    [0x1B, 0x40, 0x0A, 0x1B, 0x53, 0x0A, 0x0A, 0x1D, 0x76, 0x30, 0x30, 0x01, 0x00, 0x01, 0x00,
      0xFF, 0x0A]⟩ := by decide
/-- T-X3, T-X4. -/
theorem test_print_failures : result (.print 7 28 0) [] = some ⟨1, 0, 0, []⟩ ∧
    result (.print 8 31 0) [] = some ⟨2, 0, 0, []⟩ := by decide
/-- U10: the reserved code is not accepted; the block stays in IDLE. -/
theorem test_reserved_stays_idle :
    (nextState (step (offering ⟨3, 8, 0, 0⟩ []))).map (fun t => (t.phase, t.op, t.host)) =
      some (.idle, 0, []) := by decide
/-- P1, step 1. -/
theorem test_accept_step :
    (nextState (step (offering ⟨2, 8, 32, 0⟩ black8))).map (fun t => (t.phase, t.h, t.npix, t.outLen)) =
      some (.pre, 1, 8, 0) := by decide
/-- P1, step 24: the eighth pixel of the group. -/
theorem test_eighth_pixel_step :
    (nextState (step { holding black8 with
      phase := .pix, op := 2, npix := 8, p := 7, b := 7, acc := 0xFE, outLen := 15 })).map
        (fun t => (t.acc, t.b.toNat, t.p, t.outMem)) = some (0, 0, 8, [(15, 0xFF)]) := by decide
/-- The word of a table row is run by the very next step. -/
theorem test_fetched_word_runs :
    (nextState (step (State.reset.withFetchWord 24 0x1B530A))).map (·.outMem) =
      some [(0, 0x1B), (1, 0x53), (2, 0x0A)] := by decide
/-- R21: an ENCODE handed over whole takes its own data, not what stands in IN. -/
theorem test_operate_brings_its_data :
    (nextState (step { holding [0xAA] with host := [.operate (.req ⟨1, 8, 1, 1⟩) [0x55]] })).map
      (fun t => (t.inMem, t.outMem.read 15)) = some ([(0, 0x55)], some 0x55) := by decide
/-- The host has supplied fewer bytes than the request states. -/
theorem test_input_absent :
    (match exec (.encode 8 2 1) (holding [0]) with
      | .fault f => some f
      | _ => none) = some .inputAbsent := by decide
theorem test_memory_at_reset : State.reset.inMem.wf ∧ State.reset.outMem.wf := by decide
theorem test_memory_write_order :
    Memory.write (Memory.write (Memory.write [] 5 1) 2 9) 5 7 = [(2, 9), (5, 7)] := by decide

/-! ### Witnesses: the hypotheses of each statement can be met together -/

theorem witness_AlphaTestDecidesBelow127 :
    (126 : Byte).toNat ≤ 126 ∧ 127 ≤ (127 : Byte).toNat := by decide
theorem witness_InkIffLuminanceBelow128 : ∃ alpha : Byte, 127 ≤ alpha.toNat := ⟨127, by decide⟩
theorem witness_LuminanceIsBoundedAndMonotone : ∃ r r' g b alpha : Byte, r.toNat ≤ r'.toNat ∧
    g.toNat ≤ g.toNat ∧ contribution r' g b alpha = true := ⟨0, 127, 127, 127, 127, by decide⟩
theorem witness_ExactlyNineteenColoursAtLuminance128 : scaledLuminance 12 175 4 = 1280000 := by decide
theorem witness_StreamingStepMergesOrEmits :
    ({ State.reset with b := 7 } : State).b = 7 ∧ ({ State.reset with b := 6 } : State).b ≠ 7 := by decide
theorem witness_StreamingPackerEmitsPack8 : ∃ (ks : List Bool) (n : Nat) (s : State),
    s.acc = 0 ∧ s.b = 0 ∧ ks.length = 8 * n ∧ n ≠ 0 :=
  ⟨List.replicate 8 true, 1, State.reset, by decide⟩
theorem witness_PackerHoldsTheOpenGroup : ∃ s : State, s.acc = 0 ∧ s.b = 0 := ⟨State.reset, by decide⟩
theorem witness_RasterEmitsHeaderThenPayload :
    ∃ s : State, (0 < s.outLen) ∧ s.outLen + 8 + [(0 : Byte)].length ≤ 10 :=
  ⟨{ State.reset with outLen := 1 }, by decide⟩
theorem witness_SubBlockInstructionsFrame :
    (∃ t, exec .init State.reset = .next t) ∧ (∃ t, exec .stdmode State.reset = .next t) ∧
    (∃ t, exec .lf State.reset = .next t) ∧
    (∃ t, exec (.pack true false false false false false false false) State.reset = .next t) ∧
    (∃ t, exec (.raster 8 1 [0]) State.reset = .next t) ∧
    (∃ t, exec (.thresh 0 0 0 127) State.reset = .next t) :=
  ⟨⟨_, rfl⟩, ⟨_, rfl⟩, ⟨_, rfl⟩, ⟨_, rfl⟩, ⟨_, rfl⟩, ⟨_, rfl⟩⟩
theorem witness_HeaderIsExactOnlyWithinTheCeiling :
    (0 / 8 % 256 = 524288 / 8 % 256 ∧ 0 / 2048 % 256 = 524288 / 2048 % 256 ∧ 0 % 65536 = 65536 % 65536) ∧
    (0 / 8 % 256 = 2048 / 8 % 256 ∧ 4464 % 65536 = 70000 % 65536) := by decide
theorem witness_EncodeCompletesWithTheCommand : ∃ s : State, s.phase = .idle ∧
    s.inMem.readBytes 0 0 = some [] ∧ s.inMem.readBytes 0 1 = some [0xFF] := ⟨holding [0xFF], by decide⟩
/-- RASTERIZE and PRINT: one row, and no row. -/
theorem witness_RasterizeCompletesWithTheBitmap : ∃ s : State, s.phase = .idle ∧ (8 : Nat) ≠ 0 ∧
    8 % 8 = 0 ∧ (32 = 4 * 8 * 1 ∧ s.inMem.readBytes 0 32 = some black8) ∧
    (0 = 4 * 8 * 0 ∧ s.inMem.readBytes 0 0 = some []) := ⟨holding black8, by decide⟩
theorem witness_PrintCompletesWithTheCommand : ∃ s : State, s.phase = .idle ∧ (8 : Nat) ≠ 0 ∧
    8 % 8 = 0 ∧ (32 = 4 * 8 * 1 ∧ s.inMem.readBytes 0 32 = some pixelsCA) ∧
    (0 = 4 * 8 * 0 ∧ s.inMem.readBytes 0 0 = some []) := ⟨holding pixelsCA, by decide⟩
theorem witness_InvalidWidthFailsFirst : State.reset.phase = .idle ∧
    (∀ w ∈ [0, 7, 9], w = 0 ∨ w % 8 ≠ 0) := by decide
theorem witness_MalformedPixelBufferFails : State.reset.phase = .idle ∧
    (8 ≠ 0 ∧ 8 % 8 = 0 ∧ 31 % (4 * 8) ≠ 0) ∧ (16 ≠ 0 ∧ 16 % 8 = 0 ∧ 32 % (4 * 16) ≠ 0) := by decide
theorem witness_OperationsFrame : (holding black8).phase = .idle ∧
    (∃ t, exec (.rasterize 8 32 0) (holding black8) = .next t) ∧
    (∃ t, exec (.encode 8 1 1) (holding black8) = .next t) ∧
    (∃ t, exec (.print 8 32 0) (holding black8) = .next t) ∧
    (∃ t, exec (.print 7 32 0) (holding black8) = .next t) :=
  ⟨rfl, ⟨_, rfl⟩, ⟨_, rfl⟩, ⟨_, rfl⟩, ⟨_, rfl⟩⟩
theorem witness_PrintIsEncodeOfRasterize : ∃ t v w, (holding black8).phase = .idle ∧
    (holding [0xFF]).phase = .idle ∧ exec (.rasterize 8 32 0) (holding black8) = .next t ∧
    observe t = some ⟨0, 1, 1, [0xFF]⟩ ∧ (holding [0xFF]).inMem.readBytes 0 1 = some [0xFF] ∧
    exec (.encode 8 1 1) (holding [0xFF]) = .next v ∧ exec (.print 8 32 0) (holding black8) = .next w :=
  ⟨_, _, _, rfl, rfl, rfl, by decide, by decide, rfl, rfl⟩
theorem witness_PixelLandsAtItsRowAndColumn :
    (match rasterize black8 8 with | .ok r => some r | .error _ => none) = some ([0xFF], 1) ∧
      0 < 1 ∧ 7 < 8 := by decide
theorem witness_GroupsAreIndependent :
    (match rasterize (black8 ++ black8) 8 with | .ok r => some r | .error _ => none) = some ([0xFF, 0xFF], 2) ∧
    (match rasterize (black8 ++ black8) 16 with | .ok r => some r | .error _ => none) = some ([0xFF, 0xFF], 1) ∧
    (∀ i < 32, (black8 ++ black8)[i]? = (black8 ++ pixelsCA)[i]?) := by decide
theorem witness_RasterizeEdgeCases : ((8 : Nat) ≠ 0 ∧ 8 % 8 = 0) ∧
    (match rasterize (pixels 8 255 0 0 126) 8 with | .ok r => some r | .error _ => none) = some ([0], 1) ∧
    (∀ p < 8, 4 * p + 3 < 32 ∧ ((pixels 8 255 0 0 126).getD (4 * p + 3) 0).toNat ≤ 126) ∧
    7 % 8 ≠ 0 := by decide
theorem witness_ReservedOperationIsNotAccepted : (offering ⟨3, 8, 0, 0⟩ [1]).phase = .idle ∧
    (offering ⟨3, 8, 0, 0⟩ [1]).host = .issue ⟨3, 8, 0, 0⟩ [1] :: [] := by decide
theorem witness_BusyBlockTakesNoOperation : (atPhase .pix).phase ≠ .idle := by decide
theorem witness_StepRunsTheDecodedInstruction :
    (State.reset.withFetchWord 8 0x0A).phase = .idle ∧
    (State.reset.withFetchWord 8 0x0A).host = .operate (.cmd [0x0A]) [] :: [] ∧
    decode (.cmd [0x0A]) = .ok .lf ∧ decode (.cmd [0x0A, 0x0A]) = .error .trailingBytes := by decide
theorem witness_StepWithoutAHostStepIsTheBlocksOwn : (atPhase .trl).phase ≠ .idle ∧
    (atPhase .trl).phase ≠ .done ∧ (atPhase .trl).host = [] ∧ (atPhase .idle).phase = .idle ∧
    (atPhase .done).phase = .done ∧
    (∀ m : HostMove, ({ atPhase .trl with host := [m] } : State).host = m :: []) :=
  ⟨by decide, by decide, rfl, rfl, rfl, fun _ => rfl⟩
theorem witness_AbsentInputStopsByName : ∃ s : State, s.phase = .idle ∧ 31 < 32 ∧ s.inMem.read 31 = none ∧
    8 ≠ 0 ∧ 8 % 8 = 0 ∧ 32 % (4 * 8) = 0 ∧ (0 < 1 ∧ 3 < 4 ∧ s.inMem.read (4 * s.p + 3) = none) ∧
    (s.idx < 1 ∧ s.inMem.read s.idx = none) := ⟨State.reset, by decide⟩
theorem witness_NoEnabledStepStopsByName : ∃ s : State, 7 ≤ s.idx ∧ 8 ≤ s.idx ∧ s.npix < s.p ∧ s.len < s.idx ∧
    ∀ ph : Phase, ({ s with phase := ph } : State).phase = ph :=
  ⟨{ State.reset with idx := 8, p := 1 }, by decide, by decide, by decide, by decide, fun _ => rfl⟩
theorem witness_AcceptStepLatchesTheRequest : ∀ op : BitVec 2,
    (offering ⟨op, 8, 32, 0⟩ black8).phase = .idle ∧
    (offering ⟨op, 8, 32, 0⟩ black8).host = .issue ⟨op, 8, 32, 0⟩ black8 :: [] ∧
    (8 ≠ 0 ∧ 8 % 8 = 0 ∧ 32 = 4 * 8 * 1) ∧ (7 = 0 ∨ 7 % 8 ≠ 0) ∧
    (8 ≠ 0 ∧ 8 % 8 = 0 ∧ 31 % (4 * 8) ≠ 0) := by decide
theorem witness_FailedRequestEndsInOneStep : (offering ⟨0, 7, 31, 0⟩ []).phase = .idle ∧
    (offering ⟨0, 7, 31, 0⟩ []).host = .issue ⟨0, 7, 31, 0⟩ [] :: [] ∧ (7 = 0 ∨ 7 % 8 ≠ 0) ∧
    (offering ⟨2, 8, 31, 0⟩ []).host = .issue ⟨2, 8, 31, 0⟩ [] :: [] ∧
    (8 ≠ 0 ∧ 8 % 8 = 0 ∧ 31 % (4 * 8) ≠ 0) := by decide
theorem witness_PreambleStepEmitsOneByte : (atPhase .pre).phase = .pre ∧
    ([0x1B, 0x40, 0x0A, 0x1B, 0x53, 0x0A, 0x0A] : List Byte)[(atPhase .pre).idx]? = some 0x1B ∧
    ([0x1B, 0x40, 0x0A, 0x1B, 0x53, 0x0A, 0x0A] : List Byte)[({ atPhase .pre with idx := 6 } : State).idx]? =
      some 0x0A := by decide
theorem witness_HeaderStepEmitsOneByte : (atPhase .hdr).phase = .hdr ∧
    (headerBytes Config.xhComputed (atPhase .hdr).width (atPhase .hdr).h)[(atPhase .hdr).idx]? = some 0x1D ∧
    (headerBytes Config.xhComputed (atPhase .hdr).width (atPhase .hdr).h)[({ atPhase .hdr with idx := 7 } : State).idx]? =
      some 0 := by decide
theorem witness_PixelStepThresholdsAndPacks : ∃ s : State, s.phase = .pix ∧ s.p < s.npix ∧
    s.inMem.read (4 * s.p) = some 0 ∧ s.inMem.read (4 * s.p + 1) = some 0 ∧
    s.inMem.read (4 * s.p + 2) = some 0 ∧ s.inMem.read (4 * s.p + 3) = some 255 ∧
    ({ s with p := 8 } : State).p = ({ s with p := 8 } : State).npix ∧ s.op = 0 ∧
    ({ s with op := 2 } : State).op ≠ 0 :=
  ⟨{ holding black8 with phase := .pix, npix := 8, p := 7 }, by decide⟩
theorem witness_CopyAndTrailerSteps : ∃ s : State, s.phase = .copy ∧ s.idx < s.len ∧
    s.inMem.read s.idx = some 9 ∧ ({ s with idx := 1 } : State).idx = ({ s with idx := 1 } : State).len ∧
    (atPhase .trl).phase = .trl := ⟨{ holding [9] with phase := .copy, len := 1 }, by decide⟩
/-- The three refinements and the headline: an ENCODE and a one-row pixel operation, the host holding. -/
theorem witness_StepMachineRefines : ∀ op : BitVec 2,
    (offering ⟨op, 8, 32, 1⟩ black8).phase = .idle ∧
    (offering ⟨op, 8, 32, 1⟩ black8).host = .issue ⟨op, 8, 32, 1⟩ black8 :: [] ∧
    hostHolds [] = true ∧ hostHolds [.acknowledge] = true ∧ 32 ≤ black8.length ∧
    8 ≠ 0 ∧ 8 % 8 = 0 ∧ 32 = 4 * 8 * 1 := by decide
theorem witness_EveryRequestEndsAsTheFunctionSays : Inv (offering ⟨0, 7, 31, 0⟩ black8) ∧
    (offering ⟨0, 7, 31, 0⟩ black8).phase = .idle ∧
    (offering ⟨0, 7, 31, 0⟩ black8).host = .issue ⟨0, 7, 31, 0⟩ black8 :: [] ∧ hostHolds [] = true ∧
    (0 : BitVec 2) ≠ 3 ∧ 31 ≤ black8.length :=
  ⟨⟨by decide, by decide, trivial, fun h => (h rfl).elim⟩, by decide⟩
theorem witness_AcknowledgementLeadsToIdle : (atPhase .done).phase = .done ∧ (atPhase .done).host = [] ∧
    ({ atPhase .done with host := [.wait] } : State).host = .wait :: [] ∧
    HostMove.wait ≠ .acknowledge ∧ HostMove.wait ≠ .reset ∧
    ({ atPhase .done with host := [.acknowledge] } : State).host = .acknowledge :: [] := by decide
theorem witness_ResetLeadsToIdleFromEveryPhase : ∀ ph : Phase,
    ({ atPhase ph with host := [.reset] } : State).host = .reset :: [] := fun _ => rfl
theorem witness_OnlyTheHostReturnsTheBlockToIdle :
    (∃ t, step { atPhase .pix with host := [.reset] } = .next t ∧ t.phase = .idle) ∧
    (∃ t, step { atPhase .done with host := [.acknowledge] } = .next t ∧ t.phase = .idle) :=
  ⟨⟨_, rfl, rfl⟩, ⟨_, rfl, rfl⟩⟩

/-- A RASTERIZE of one row of eight pixels, in its pixel phase, nothing read yet. -/
def running : State := { holding black8 with phase := .pix, width := 8, len := 32, h := 1, npix := 8 }

theorem running_inv : Inv running :=
  ⟨by decide, by decide, by simp [PhaseInv, Latched, running, holding, State.reset],
    fun _ _ h => absurd h (Nat.not_lt_zero _)⟩

theorem witness_PhasesFollowTheOperation : Inv (offering ⟨0, 8, 32, 0⟩ black8) ∧
    (∀ m ∈ (offering ⟨0, 8, 32, 0⟩ black8).host, m.specified = true) ∧
    ∃ t, step (offering ⟨0, 8, 32, 0⟩ black8) = .next t ∧ t.phase = .pix :=
  ⟨⟨by decide, by decide, trivial, fun h => (h rfl).elim⟩, by decide, _, rfl, rfl⟩
theorem witness_InIsReadOnlyWhileRunning : (∃ t, step (offering ⟨0, 8, 32, 0⟩ black8) = .next t ∧
    t.inMem ≠ (offering ⟨0, 8, 32, 0⟩ black8).inMem) ∧ ∃ t u,
    step { holding [] with host := [.operate (.req ⟨1, 8, 1, 1⟩) [7]] } = .next t ∧ t.inMem ≠ [] ∧
    step running = .next u ∧ u.inMem = running.inMem :=
  ⟨⟨_, rfl, by decide⟩, _, _, rfl, by decide, rfl, by decide⟩
theorem witness_OutGrowsOneByteAtATime : running.phase ≠ .idle ∧ running.phase ≠ .done ∧
    (∀ rest, running.host ≠ .reset :: rest) ∧ ∃ t, step running = .next t :=
  ⟨by decide, by decide, fun _ => by simp [running, holding, State.reset], _, rfl⟩
theorem witness_BlockStaysWithinItsBounds : Inv running ∧ running.phase ≠ .idle ∧
    running.phase ≠ .done ∧ (∀ a, a < running.len → (running.inMem.write 32 1).read a = running.inMem.read a) ∧
    ∃ t, blockStep running = .next t :=
  ⟨running_inv, by decide, by decide, by decide, _, rfl⟩
theorem witness_EveryStepKeepsTheInvariant : Inv running ∧ ∃ t, step running = .next t :=
  ⟨running_inv, _, rfl⟩
theorem witness_AdmittedRunNeverStops : Inv running ∧ Supplied running ∧ AdmittedHost running :=
  ⟨running_inv, fun _ _ => by decide, by intro m h; cases h⟩
theorem witness_RegistersNeverOutgrowTheirFields : Config.wBits ≤ 16 ∧ Config.lenBits ≤ 32 ∧ Inv running ∧
    (∀ m ∈ running.host, m.specified = true) ∧
    (∀ r data, .issue r data ∈ running.host → r.fitsIn 16 32 = true) ∧
    RegistersFit 16 32 running ∧ ∃ t, step running = .next t :=
  ⟨by decide, by decide, running_inv, by decide, (by intro r d h; cases h),
    ⟨by decide, by decide, by decide, by decide, by decide, by decide, by decide, by decide, by decide, by decide⟩,
    _, rfl⟩
theorem witness_NoHistoryIsKept : ∃ s t : State, s.phase = .idle ∧ t.phase = .idle ∧ s.host = t.host ∧
    s ≠ t ∧ s.inMem ≠ t.inMem ∧ s.host ≠ [] :=
  ⟨{ holding [7] with host := [.operate (.req ⟨1, 8, 1, 1⟩) [0], .acknowledge] },
    { holding [] with host := [.operate (.req ⟨1, 8, 1, 1⟩) [0], .acknowledge], acc := 9, outMem := [(3, 1)] },
    by decide⟩
theorem witness_DecodeOfEncodeIsTheInstruction : (Instr.raster 2040 0 []).wellFormed = true ∧
    (Instr.encode 65535 4294967279 4294967295).wellFormed = true := by decide
theorem witness_EncodeOfDecodeIsTheWord : decode (.pixel [1, 2, 3, 4]) = .ok (.thresh 1 2 3 4) := by decide
theorem witness_CommandStreamReadsBack : 8 % 8 = 0 ∧ 8 < 2048 ∧ 2 < 65536 ∧
    [(0x0A : Byte), 0x1B].length = 8 / 8 * 2 := by decide

end Sys2Proof.Tests
end

/-! PROOFS. The formatter's four commands as emissions at `out_len` (O11, O12). -/

namespace Sys2Proof.Machine

/-- `Emit` of a byte string changes OUT and `out_len` only. -/
theorem emitAll_frame (vs : List Byte) (s : State) :
    emitAll vs s =
      { s with outMem := (emitAll vs s).outMem, outLen := s.outLen + vs.length } := by
  rw [emitAll_eq]

/-- `Emit` of a byte string leaves OUT outside its own range alone. -/
theorem emitAll_read_outside {vs : List Byte} {s : State} {a : Nat}
    (h : a < s.outLen ∨ s.outLen + vs.length ≤ a) :
    (emitAll vs s).outMem.read a = s.outMem.read a := by
  simp only [emitAll_eq, writeAll_read, if_pos h]

@[simp] theorem headerBytes_length (xhComputed : Bool) (width height : Nat) :
    (headerBytes xhComputed width height).length = 8 := by
  simp [headerBytes_eq]

@[simp] theorem preamble_length : preamble.length = 7 := rfl

theorem exec_init (s : State) : exec .init s = .next (emitAll initBytes s) := rfl

theorem exec_stdmode (s : State) : exec .stdmode s = .next (emitAll stdmodeBytes s) := rfl

theorem exec_lf (s : State) : exec .lf s = .next (emitAll lfBytes s) := rfl

/-- RASTER is one emission, of the header and the payload together. -/
theorem exec_raster (width height : Nat) (bitmap : List Byte) (s : State) :
    exec (.raster width height bitmap) s =
      .next (emitAll (headerBytes Config.xhComputed width height ++ bitmap) s) := by
  rw [emitAll_append]
  rfl

/-- A RasterCommand begins with the bytes of INIT, STDMODE and LF. -/
theorem encodeRasterCommand_take_preamble (bitmap : List Byte) (width height : Nat) :
    (encodeRasterCommand bitmap width height).take 7 = preamble := by
  simp only [encodeRasterCommand, encodeRasterCommandWith, List.append_assoc]
  exact List.take_left' rfl

/-- A RasterCommand ends with LF, at offset `15 + N` of a payload of `N` bytes. -/
theorem encodeRasterCommand_getElem?_trailer (bitmap : List Byte) (width height : Nat) :
    (encodeRasterCommand bitmap width height)[15 + bitmap.length]? = some 0x0A := by
  have hlen : (preamble ++ headerBytes Config.xhComputed width height ++ bitmap).length =
      15 + bitmap.length := by
    simp only [List.length_append, preamble_length, headerBytes_length]
  rw [encodeRasterCommand, encodeRasterCommandWith, ← hlen]
  exact List.getElem?_concat_length

/-- Settles O12: RASTER is one emission of header and payload, whose value, read-back and frame are those
of every emission. -/
theorem rasterEmitsHeaderThenPayload : Obligations.RasterEmitsHeaderThenPayload := by
  intro width height bitmap s
  have hlen : (headerBytes Config.xhComputed width height ++ bitmap).length =
      8 + bitmap.length := by simp
  refine ⟨_, exec_raster width height bitmap s, ?frame, ?payload, ?outside⟩
  case frame =>
    rw [Nat.add_assoc, ← hlen]
    exact emitAll_frame _ s
  case payload =>
    rw [← headerBytes_eq, ← hlen]
    exact emitAll_readBytes _ s
  case outside =>
    intro a ha
    exact emitAll_read_outside (by omega)

/-- Settles O11: the place of the fixed commands in a RasterCommand, and each of them run alone, where
`emitAll` of a byte string written out is one write a byte. -/
theorem fixedCommandsEmitTheirBytes : Obligations.FixedCommandsEmitTheirBytes := by
  constructor
  · intro bitmap width height
    exact ⟨encodeRasterCommand_take_preamble bitmap width height,
      encodeRasterCommand_getElem?_trailer bitmap width height⟩
  · intro s
    rw [exec_init, exec_stdmode, exec_lf, emitAll_eq, emitAll_eq, emitAll_eq]
    exact ⟨rfl, rfl, rfl⟩

end Sys2Proof.Machine

/-! PROOFS. The two spaces: the place of a pixel in the bitmap (O23), and the bounds of IN and OUT that a
block step respects (O49). -/

namespace Sys2Proof.Machine

/-- The pixels of a valid width `8*q` and height `n` make `q` bytes a row. -/
theorem bitmapOf_length_of_rows {pixels : List Byte} {q n : Nat}
    (h : pixels.length = 4 * (8 * q) * n) : (bitmapOf pixels).length = q * n := by
  rw [bitmapOf_length, h, show 4 * (8 * q) * n = 32 * (q * n) by ring]
  exact Nat.mul_div_cancel_left _ (by decide)

/-- Settles O23: with `width = 8*q`, the linear index `r*width + c` is `8*(r*q + c/8) + c%8`, and a byte
inside row `r < n` is one of the `q*n` bytes of the bitmap. -/
theorem pixelLandsAtItsRowAndColumn : Obligations.PixelLandsAtItsRowAndColumn := by
  intro pixels bitmap width n r c hok hr hc p
  obtain ⟨hcheck, rfl⟩ := rasterize_ok.1 hok
  obtain ⟨-, hw, hlen⟩ := checkRequest_ok.1 hcheck
  obtain ⟨q, rfl⟩ := Nat.dvd_of_mod_eq_zero hw
  have hbytes : (bitmapOf pixels).length = q * n := bitmapOf_length_of_rows hlen
  have hq : 8 * q / 8 = q := Nat.mul_div_cancel_left q (by decide)
  have hp : p = 8 * (r * q + c / 8) + c % 8 := by
    have : r * (8 * q) = 8 * (r * q) := by ring
    omega
  have hrow : r * q + c / 8 < (r + 1) * q := by rw [Nat.add_one_mul]; omega
  have hbyte : r * q + c / 8 < q * n :=
    hrow.trans_le (Nat.mul_comm n q ▸ Nat.mul_le_mul_right q hr)
  rw [hq, hp]
  exact ⟨hbytes, by omega, by omega, hrow,
    bitmapOf_getLsbD pixels _ _ (by rwa [← bitmapOf_length, hbytes]) (Nat.mod_lt _ (by decide))⟩

/-- A packer step reads no byte of IN. -/
theorem packStep_inMem (k : Bool) (s : State) (m : Memory) :
    packStep k { s with inMem := m } = { packStep k s with inMem := m } := by
  by_cases hb : s.b = 7
  · rw [packStep_emit hb, packStep_emit (s := { s with inMem := m }) hb]
    rfl
  · rw [packStep_merge hb, packStep_merge (s := { s with inMem := m }) hb]

/-- The packer emits its byte in the step that fills the group. -/
theorem packStep_outLen (k : Bool) (s : State) :
    (packStep k s).outLen = s.outLen + (s.b.toNat + 1) / 8 := by
  by_cases hb : s.b = 7
  · rw [packStep_emit hb, hb]
    rfl
  · have : s.b.toNat < 7 := by bv_omega
    rw [packStep_merge hb, Nat.div_eq_of_lt (by omega)]
    rfl

/-- A pixel is read from its own four bytes. -/
theorem readPixel_congr {m m' : Memory} {p n : Nat} (h : ∀ a, a < n → m.read a = m'.read a)
    (hp : 4 * p + 3 < n) {red green blue alpha : Byte}
    (hr : readPixel m' p = some (red, green, blue, alpha)) :
    readPixel m p = some (red, green, blue, alpha) := by
  rw [readPixel_eq_some] at hr ⊢
  rwa [h _ (by omega), h _ (by omega), h _ (by omega), h _ (by omega)]

/-- A block step is the same over a space that agrees with IN below `len`, if the pixels lie below `len`
when they are read: only a pixel and a copy step read IN at all (R142, R145). -/
theorem BlockStep.congr_inMem {s t : State} {m : Memory} (h : BlockStep s t)
    (hm : ∀ a, a < s.len → m.read a = s.inMem.read a)
    (hpix : s.phase = .pix → 4 * s.npix = s.len) :
    BlockStep { s with inMem := m } { t with inMem := m } := by
  cases h with
  | hold h => exact .hold h
  | pre v h hv hi => exact .pre v h hv hi
  | preEnd v h hv hi => exact .preEnd v h hv hi
  | hdr v h hv hi => exact .hdr v h hv hi
  | hdrEnd v h hv hi => exact .hdrEnd v h hv hi
  | pixel red green blue alpha h hp hr =>
    have hlast : 4 * s.p + 3 < s.len := by
      have := hpix h
      omega
    have hstep := BlockStep.pixel (s := { s with inMem := m }) red green blue alpha h hp
      (readPixel_congr hm hlast hr)
    rwa [packStep_inMem _ { s with k := contribution red green blue alpha } m] at hstep
  | pixComplete h hp ho => exact .pixComplete h hp ho
  | pixEnd h hp ho => exact .pixEnd h hp ho
  | copy v h hi hv => exact .copy v h hi ((hm _ hi).trans hv)
  | copyEnd h hi => exact .copyEnd h hi
  | trl h => exact .trl h

/-- A block step leaves OUT and `out_len`, or emits one byte. -/
theorem BlockStep.out_cases {s t : State} (h : BlockStep s t) :
    (t.outMem = s.outMem ∧ t.outLen = s.outLen) ∨
      ((∃ v, t.outMem = s.outMem.write s.outLen v) ∧ t.outLen = s.outLen + 1) := by
  cases h with
  | hold | pixComplete | pixEnd | copyEnd => exact .inl ⟨rfl, rfl⟩
  | pre v | preEnd v | hdr v | hdrEnd v | copy v => exact .inr ⟨⟨v, rfl⟩, rfl⟩
  | trl => exact .inr ⟨⟨0x0A, rfl⟩, rfl⟩
  | pixel red green blue alpha =>
    obtain ⟨acc, b, om, ol, heq, -, ⟨-, -, hol, v, hom⟩ | ⟨-, hol, hom⟩⟩ := packStep_cases
      (contribution red green blue alpha) { s with k := contribution red green blue alpha }
    · rw [heq]
      exact .inr ⟨⟨v, hom⟩, hol⟩
    · rw [heq]
      exact .inl ⟨hom, hol⟩

/-- A running operation holds what its acceptance latched. -/
theorem PhaseInv.latched {s : State} (h : PhaseInv s) (hidle : s.phase ≠ .idle)
    (hdone : s.phase ≠ .done) : Latched s := by
  cases hp : s.phase with
  | idle => exact absurd hp hidle
  | done => exact absurd hp hdone
  | pre | hdr | pix | copy | trl =>
    simp only [PhaseInv, hp] at h
    exact h.1

/-- The buffer of a pixel operation is its pixels, four bytes each. -/
theorem Latched.four_mul_npix {s : State} (h : Latched s) (hop : s.op ≠ 1) :
    4 * s.npix = s.len := by
  obtain ⟨hop', -, -⟩ | ⟨-, -, -, hlen, hnpix⟩ := h
  · exact absurd hop' hop
  · rw [hlen, hnpix, Nat.mul_assoc]

theorem resultBytes_of_op_ne_zero {s : State} (h : s.op ≠ 0) :
    resultBytes s = 16 + payloadBytes s := if_neg h

theorem resultBytes_of_encode {s : State} (h : s.op = 1) : resultBytes s = 16 + s.len := by
  rw [resultBytes_of_op_ne_zero (by simp [h]), payloadBytes, if_pos h]

/-- The result's length is the capacity R49 gives each operation in terms of `len`. -/
theorem Latched.resultBytes_eq {s : State} (h : Latched s) :
    resultBytes s = if s.op = 0 then s.len / 32
      else if s.op = 1 then 16 + s.len else 16 + s.len / 32 := by
  rw [resultBytes, payloadBytes]
  by_cases hop : s.op = 1
  · simp [hop]
  · rw [if_neg hop, if_neg hop, ← h.four_mul_npix hop, show 4 * s.npix / 32 = s.npix / 8 by omega]

theorem Latched.resultBytes_le {s : State} (h : Latched s) : resultBytes s ≤ 16 + s.len := by
  rw [h.resultBytes_eq]
  split
  · omega
  · split <;> omega

/-- The pixels done leave `out_len` within the result. -/
theorem pixel_bytes_le_resultBytes {s : State} (hop : s.op ≠ 1) {p : Nat} (hp : p ≤ s.npix) :
    (if s.op = 0 then 0 else 15) + p / 8 ≤ resultBytes s := by
  rw [resultBytes, payloadBytes, if_neg hop]
  split <;> omega

/-- A running block step takes `out_len` no further than the result's length. -/
theorem BlockStep.outLen_le {s t : State} (h : BlockStep s t) (hinv : PhaseInv s)
    (hidle : s.phase ≠ .idle) (hdone : s.phase ≠ .done) : t.outLen ≤ resultBytes s := by
  cases h with
  | hold h => exact absurd h (not_or.2 ⟨hidle, hdone⟩)
  | pre v h | preEnd v h | hdr v h | hdrEnd v h =>
    simp only [PhaseInv, h] at hinv
    obtain ⟨-, hop, -, -, -, hidx, hout⟩ := hinv
    rw [resultBytes_of_op_ne_zero hop]
    simp only [emit_outLen]
    omega
  | pixel red green blue alpha h hp =>
    simp only [PhaseInv, h] at hinv
    obtain ⟨-, hop, -, hb, -, hout⟩ := hinv
    have hle := pixel_bytes_le_resultBytes hop (Nat.succ_le_of_lt hp)
    simp only [packStep_outLen, hb, hout]
    omega
  | pixComplete h | pixEnd h =>
    simp only [PhaseInv, h] at hinv
    obtain ⟨-, hop, hp, -, -, hout⟩ := hinv
    exact hout.trans_le (pixel_bytes_le_resultBytes hop hp)
  | copy v h hi =>
    simp only [PhaseInv, h] at hinv
    obtain ⟨-, hop, -, hout⟩ := hinv
    rw [resultBytes_of_encode hop]
    simp only [emit_outLen]
    omega
  | copyEnd h hi =>
    simp only [PhaseInv, h] at hinv
    obtain ⟨-, hop, hidx, hout⟩ := hinv
    rw [resultBytes_of_encode hop]
    show s.outLen ≤ 16 + s.len
    omega
  | trl h =>
    simp only [PhaseInv, h] at hinv
    obtain ⟨-, hop, hout⟩ := hinv
    rw [resultBytes_of_op_ne_zero hop]
    simp only [complete_outLen, emit_outLen]
    omega

/-- A block step that ends with `out_len` at or below `n` writes no byte of OUT from `n` on. -/
theorem BlockStep.read_outMem_of_le {s t : State} (h : BlockStep s t) {n a : Nat}
    (hn : t.outLen ≤ n) (ha : n ≤ a) : t.outMem.read a = s.outMem.read a := by
  obtain ⟨hmem, -⟩ | ⟨⟨v, hmem⟩, hout⟩ := h.out_cases
  · rw [hmem]
  · rw [hmem, Memory.read_write_other _ v (by omega)]

/-- Settles O49: the block reads IN in its pixel and copy steps only, below `len`, and each step ends
with `out_len` within the result's length, which is the operation's capacity in terms of `len`. -/
theorem blockStaysWithinItsBounds : Obligations.BlockStaysWithinItsBounds := by
  intro s t m hinv hidle hdone hm hstep
  obtain ⟨-, -, hphase, -⟩ := hinv
  have hblock := blockStep_inv hstep
  have hlatched := hphase.latched hidle hdone
  have hout := hblock.outLen_le hphase hidle hdone
  have hpix (h : s.phase = .pix) : 4 * s.npix = s.len := by
    simp only [PhaseInv, h] at hphase
    obtain ⟨-, hop, -⟩ := hphase
    exact hlatched.four_mul_npix hop
  rw [← hlatched.resultBytes_eq]
  exact ⟨blockStep_of (hblock.congr_inMem hm hpix), hlatched.four_mul_npix,
    hout.trans hlatched.resultBytes_le, hout,
    fun a => hblock.read_outMem_of_le (hout.trans hlatched.resultBytes_le),
    fun a => hblock.read_outMem_of_le hout⟩

end Sys2Proof.Machine

/-! PROOFS. The encodings: PACK8 read back (O7), the size bytes of the header (O14), and the raster command,
its layout (O59) and what a reader recovers from it (O57). -/

namespace Sys2Proof.Machine

/-! ### PACK8 -/

theorem weigh_eq_mul (k : Bool) (w : Nat) : weigh k w = w * k.toNat := by
  cases k <;> simp [weigh]

/-- The eight weights add up to 255, so PACK8 loses nothing (R100). -/
theorem pack8_toNat (k0 k1 k2 k3 k4 k5 k6 k7 : Bool) :
    (pack8 k0 k1 k2 k3 k4 k5 k6 k7).toNat =
      128 * k0.toNat + 64 * k1.toNat + 32 * k2.toNat + 16 * k3.toNat +
        8 * k4.toNat + 4 * k5.toNat + 2 * k6.toNat + k7.toNat := by
  have := k0.toNat_le; have := k1.toNat_le; have := k2.toNat_le; have := k3.toNat_le
  have := k4.toNat_le; have := k5.toNat_le; have := k6.toNat_le; have := k7.toNat_le
  simp only [pack8, weigh_eq_mul, BitVec.toNat_ofNat]
  omega

theorem toNat_shiftRight_mod_two (v : Byte) (i : Nat) :
    (v.toNat >>> i) % 2 = (v.getLsbD i).toNat := by
  rw [Nat.shiftRight_eq_div_pow, ← Nat.toNat_testBit, BitVec.testBit_toNat]

/-- A byte is PACK8 of its own bits. -/
theorem pack8_bits (v : Byte) :
    pack8 (v.getLsbD 7) (v.getLsbD 6) (v.getLsbD 5) (v.getLsbD 4)
      (v.getLsbD 3) (v.getLsbD 2) (v.getLsbD 1) (v.getLsbD 0) = v := by
  apply BitVec.eq_of_getLsbD_eq
  intro i hi
  obtain ⟨b, rfl⟩ : ∃ b : Fin 8, i = 7 - b := ⟨⟨7 - i, by omega⟩, by simp; omega⟩
  rw [pack8_getLsbD]
  fin_cases b <;> rfl

/-- Settles O7: the bits of PACK8 are its contributions, and every byte is PACK8 of its own bits. -/
theorem packedByteReadsBack : Obligations.PackedByteReadsBack := by
  refine ⟨pack8_toNat, fun k0 k1 k2 k3 k4 k5 k6 k7 b => ?_,
    fun v => ⟨_, _, _, _, _, _, _, _, pack8_bits v⟩⟩
  rw [toNat_shiftRight_mod_two, pack8_getLsbD]

/-! ### The size bytes -/

theorem byte_ofNat_mod (n : Nat) : BitVec.ofNat 8 (n % 256) = BitVec.ofNat 8 n := by
  apply BitVec.eq_of_toNat_eq
  simp only [BitVec.toNat_ofNat, Nat.reducePow, Nat.mod_mod]

/-- Settles O14: the header in full, whose size bytes are the low bytes of what they state. -/
theorem headerSizeBytes : Obligations.HeaderSizeBytes := by
  intro width height
  simp only [headerBytes_eq, byte_ofNat_mod]
  exact ⟨rfl, rfl⟩

/-- A number of two bytes, from its low and its high byte. -/
theorem lowByte_add_high {n : Nat} (h : n < 65536) :
    (lowByte n).toNat + 256 * (lowByte (n >>> 8)).toNat = n := by
  simp only [lowByte, BitVec.toNat_ofNat, Nat.shiftRight_eq_div_pow]
  omega

/-- Below the ceiling xH is 0 for both settings of XH_COMPUTED (R68, R69). -/
theorem xHigh_eq_zero {width : Nat} (h : width < 2048) (xhComputed : Bool) :
    xHigh xhComputed width = 0 := by
  have hshift : width >>> 11 = 0 := by
    rw [Nat.shiftRight_eq_div_pow, Nat.div_eq_of_lt h]
  cases xhComputed with
  | false => rfl
  | true => rw [xHigh, if_pos rfl, hshift]; rfl

/-- Below the ceiling the size bytes xL and xH give the number of byte-columns back (R73). -/
theorem columns_of_sizeBytes {width : Nat} (h : width < 2048) (xhComputed : Bool) :
    (lowByte (width >>> 3)).toNat + 256 * (xHigh xhComputed width).toNat = width / 8 := by
  have hxL : (lowByte (width >>> 3)).toNat = width / 8 := by
    rw [lowByte, BitVec.toNat_ofNat, Nat.shiftRight_eq_div_pow, Nat.mod_eq_of_lt (by omega)]
  rw [hxL, xHigh_eq_zero h]
  rfl

/-! ### The layout of the raster command -/

@[simp] theorem commandHead_length (xhComputed : Bool) (width height : Nat) :
    (preamble ++ headerBytes xhComputed width height).length = 15 := by simp

theorem encodeRasterCommandWith_eq (xhComputed : Bool) (bitmap : List Byte) (width height : Nat) :
    encodeRasterCommandWith xhComputed bitmap width height =
      (preamble ++ headerBytes xhComputed width height) ++ (bitmap ++ lfBytes) := by
  rw [encodeRasterCommandWith, List.append_assoc _ bitmap]

/-- The first fifteen bytes are the preamble and the header (R71). -/
theorem encodeRasterCommandWith_take (xhComputed : Bool) (bitmap : List Byte) (width height : Nat) :
    (encodeRasterCommandWith xhComputed bitmap width height).take 15 =
      preamble ++ headerBytes xhComputed width height := by
  rw [encodeRasterCommandWith_eq, List.take_left' (commandHead_length ..)]

/-- From offset 15 on stand the bitmap and the trailing LF (R71). -/
theorem encodeRasterCommandWith_drop (xhComputed : Bool) (bitmap : List Byte) (width height : Nat) :
    (encodeRasterCommandWith xhComputed bitmap width height).drop 15 = bitmap ++ lfBytes := by
  rw [encodeRasterCommandWith_eq, List.drop_left' (commandHead_length ..)]

theorem encodeRasterCommandWith_getElem? (xhComputed : Bool) (bitmap : List Byte)
    (width height i : Nat) :
    (encodeRasterCommandWith xhComputed bitmap width height)[15 + i]? = (bitmap ++ lfBytes)[i]? := by
  rw [← encodeRasterCommandWith_drop xhComputed bitmap width height, List.getElem?_drop]

theorem encodeRasterCommandWith_length (xhComputed : Bool) (bitmap : List Byte) (width height : Nat) :
    (encodeRasterCommandWith xhComputed bitmap width height).length = 16 + bitmap.length := by
  rw [encodeRasterCommandWith_eq, List.length_append, commandHead_length, List.length_append]
  change 15 + (bitmap.length + 1) = _
  omega

/-- Settles O59: the command is fifteen fixed and size bytes, the bitmap, and LF. -/
theorem commandStreamLayout : Obligations.CommandStreamLayout := by
  intro bitmap width height s
  refine ⟨encodeRasterCommandWith_length .., ?head, ?payload, ?trailer⟩
  case head =>
    rw [encodeRasterCommandWith_take, headerBytes_eq]
    rfl
  case payload =>
    intro i hi
    rw [encodeRasterCommandWith_getElem?, List.getElem?_append_left hi]
  case trailer =>
    rw [encodeRasterCommandWith_getElem?]
    exact List.getElem?_concat_length

/-! ### Reading a command stream back -/

@[simp] theorem decodeCommand_init (rest : List Byte) :
    decodeCommand (initBytes ++ rest) = .ok (.init, rest) := rfl

@[simp] theorem decodeCommand_stdmode (rest : List Byte) :
    decodeCommand (stdmodeBytes ++ rest) = .ok (.stdmode, rest) := rfl

@[simp] theorem decodeCommand_lf (rest : List Byte) :
    decodeCommand (lfBytes ++ rest) = .ok (.lf, rest) := rfl

/-- A header and a payload as long as the header states are read back as RASTER, and what follows the
payload is left (R72, R73). -/
theorem decodeCommand_raster {width height : Nat} {bitmap : List Byte}
    (hmod : width % 8 = 0) (hwidth : width < 2048) (hrows : height < 65536)
    (hlen : bitmap.length = width / 8 * height) (rest : List Byte) :
    decodeCommand (headerBytes Config.xhComputed width height ++ (bitmap ++ rest)) =
      .ok (.raster width height bitmap, rest) := by
  change decodeRaster (lowByte (width >>> 3) :: xHigh Config.xhComputed width :: lowByte height ::
    lowByte (height >>> 8) :: (bitmap ++ rest)) = _
  have hcols : 8 * (width / 8) = width := Nat.mul_div_cancel' (Nat.dvd_of_mod_eq_zero hmod)
  have hxH : ¬ (Config.xhComputed = false ∧ xHigh Config.xhComputed width ≠ 0) :=
    fun ⟨_, hne⟩ => hne (xHigh_eq_zero hwidth _)
  have hlong : ¬ (bitmap ++ rest).length < bitmap.length := by simp
  simp only [decodeRaster, columns_of_sizeBytes hwidth, lowByte_add_high hrows, ← hlen,
    if_neg hxH, if_neg hlong, hcols, List.take_left, List.drop_left]

/-- The stream reader reads one command, then the rest. -/
theorem decodeStream_cons {fuel : Nat} {bytes rest : List Byte} {i : Instr} {is : List Instr}
    (hfirst : decodeCommand bytes = .ok (i, rest)) (hrest : decodeStream fuel rest = .ok is) :
    decodeStream (fuel + 1) bytes = .ok (i :: is) := by
  cases bytes with
  | nil => cases hfirst
  | cons v vs => simp only [decodeStream, hfirst, hrest]

/-- The stream of a command within the bounds of its header is its five commands (R70). -/
theorem decodeStream_encodeRasterCommand {width height : Nat} {bitmap : List Byte}
    (hmod : width % 8 = 0) (hwidth : width < 2048) (hrows : height < 65536)
    (hlen : bitmap.length = width / 8 * height) :
    decodeStream 5 (encodeRasterCommand bitmap width height) =
      .ok [.init, .stdmode, .lf, .raster width height bitmap, .lf] := by
  simp only [encodeRasterCommand, encodeRasterCommandWith, preamble, List.append_assoc]
  exact decodeStream_cons (decodeCommand_init _) <|
    decodeStream_cons (decodeCommand_stdmode _) <|
    decodeStream_cons (decodeCommand_lf _) <|
    decodeStream_cons (decodeCommand_raster hmod hwidth hrows hlen _) <|
    decodeStream_cons (decodeCommand_lf []) rfl

/-- Settles O57: the size bytes give `width / 8` and `height` back, so their product is the payload's
length, and the rest is the command's layout and the stream reader. -/
theorem commandStreamReadsBack : Obligations.CommandStreamReadsBack := by
  intro width height bitmap hmod hwidth hrows hlen s columns rows
  have hcolumns : columns = width / 8 := columns_of_sizeBytes hwidth Config.xhComputed
  have hheight : rows = height := lowByte_add_high hrows
  rw [hcolumns, hheight, ← hlen]
  refine ⟨by omega, rfl, ?bitmap, encodeRasterCommand_length .., encodeRasterCommand_getElem?_trailer ..,
    decodeStream_encodeRasterCommand hmod hwidth hrows hlen⟩
  case bitmap =>
    change bitmap = ((encodeRasterCommandWith Config.xhComputed bitmap width height).drop 15).take _
    rw [encodeRasterCommandWith_drop, List.take_left]

end Sys2Proof.Machine

/-! PROOFS. THRESH: the alpha test (O2), the luminance test (O3) and the scaled luminance (O4). -/

namespace Sys2Proof.Machine

/-! ### The two tests -/

theorem contribution_of_alpha_le {alpha : Byte} (h : alpha.toNat ≤ 126) (red green blue : Byte) :
    contribution red green blue alpha = false := if_pos h

theorem contribution_of_le_alpha {alpha : Byte} (h : 127 ≤ alpha.toNat) (red green blue : Byte) :
    contribution red green blue alpha = decide (scaledLuminance red green blue < 1280000) :=
  if_neg (by omega)

/-- Settles O2: the alpha test fails, or it passes as it does for alpha 255. -/
theorem alphaTestDecidesBelow127 : Obligations.AlphaTestDecidesBelow127 := by
  intro red green blue alpha
  refine ⟨fun h => contribution_of_alpha_le h red green blue, fun h => ?_⟩
  rw [contribution_of_le_alpha h, contribution_of_le_alpha (alpha := 255) (by decide)]

/-- Settles O3: past the alpha test only the luminance test is left, and 1280000 is 128 times the
scale. -/
theorem inkIffLuminanceBelow128 : Obligations.InkIffLuminanceBelow128 := by
  intro red green blue alpha h
  have hink : contribution red green blue alpha = true ↔ scaledLuminance red green blue < 1280000 :=
    (contribution_iff ..).trans (and_iff_right h)
  have hfloor : scaledLuminance red green blue < 1280000 ↔
      scaledLuminance red green blue / 10000 ≤ 127 := by omega
  exact ⟨hink, hink.trans hfloor⟩

/-! ### The scaled luminance -/

/-- The three weights add up to the scale. -/
theorem scaledLuminance_grey (g : Byte) : scaledLuminance g g g = 10000 * g.toNat := by
  unfold scaledLuminance
  omega

theorem scaledLuminance_mono {r g b r' g' b' : Byte} (hr : r.toNat ≤ r'.toNat)
    (hg : g.toNat ≤ g'.toNat) (hb : b.toNat ≤ b'.toNat) :
    scaledLuminance r g b ≤ scaledLuminance r' g' b' := by
  unfold scaledLuminance
  gcongr

/-- The luminance of a colour is at most that of white. -/
theorem scaledLuminance_le (red green blue : Byte) : scaledLuminance red green blue ≤ 2550000 :=
  have byte_le (v : Byte) : v.toNat ≤ (255 : Byte).toNat := Nat.le_of_lt_succ v.isLt
  scaledLuminance_mono (byte_le red) (byte_le green) (byte_le blue)

theorem contribution_grey_iff (g : Byte) : contribution g g g 255 = true ↔ g.toNat ≤ 127 := by
  rw [contribution_iff, scaledLuminance_grey, and_iff_right (by decide)]
  omega

/-- Of two pixels of one alpha, the darker is ink if the brighter is. -/
theorem contribution_of_scaledLuminance_le {r g b r' g' b' alpha : Byte}
    (hle : scaledLuminance r g b ≤ scaledLuminance r' g' b')
    (hink : contribution r' g' b' alpha = true) : contribution r g b alpha = true := by
  obtain ⟨halpha, hlum⟩ := (contribution_iff ..).1 hink
  exact (contribution_iff ..).2 ⟨halpha, hle.trans_lt hlum⟩

/-- Settles O4: the products are bounded by their channels, and the rest are the luminance of white, of a
grey, and its monotonicity. -/
theorem luminanceIsBoundedAndMonotone : Obligations.LuminanceIsBoundedAndMonotone := by
  refine ⟨?bounds, fun g => ⟨scaledLuminance_grey g, contribution_grey_iff g⟩, ?mono⟩
  case bounds =>
    intro red green blue
    have hsum := scaledLuminance_le red green blue
    have := red.isLt; have := green.isLt; have := blue.isLt
    exact ⟨by omega, by omega, by omega, rfl, hsum, by omega⟩
  case mono =>
    intro r g b r' g' b' alpha hr hg hb
    have hle := scaledLuminance_mono hr hg hb
    exact ⟨hle, contribution_of_scaledLuminance_le hle⟩

end Sys2Proof.Machine

/-! PROOFS. RASTERIZE: its completion (O17), the independence of the groups of eight pixels (O24) and the
edge cases (O25). -/

namespace Sys2Proof.Machine

/-! ### Completion -/

/-- RASTERIZE and PRINT in IDLE, on a request that passes the check with its data in IN and a result of
the function level. -/
theorem pixelOperation_of_ok {f : List Byte → Nat → Except Failure (List Byte × Nat)} {r : Request}
    {s : State} {n m : Nat} {pixels bytes : List Byte} (hidle : s.phase = .idle)
    (hcheck : checkRequest r.width r.len = .ok n) (hread : s.inMem.readBytes 0 r.len = some pixels)
    (hf : f pixels r.width = .ok (bytes, m)) :
    pixelOperation f r s =
      .next (complete m (emitAll bytes (pixelsDone pixels m (latch r s)))) := by
  simp only [pixelOperation, readData, hidle, ne_eq, not_true_eq_false, if_false, hcheck, hread, hf]

/-- The result of an operation that emits all of it from offset 0 on. -/
theorem observe_complete_emitAll {s : State} (h : s.outLen = 0) (n : Nat) (bytes : List Byte) :
    observe (complete n (emitAll bytes s)) = some ⟨0, n, bytes.length, bytes⟩ := by
  have hlen : (emitAll bytes s).outLen = bytes.length := by rw [emitAll_outLen, h, Nat.zero_add]
  have hread : (emitAll bytes s).outMem.readBytes 0 bytes.length = some bytes :=
    h ▸ emitAll_readBytes bytes s
  rw [observe_done rfl (vs := bytes) (by rw [complete_outMem, complete_outLen, hlen, hread]),
    complete_status, complete_heightOut, complete_outLen, hlen]

/-- RASTERIZE in IDLE, on a valid request with its pixels in IN. -/
theorem exec_rasterize_of_ok {width len n : Nat} {pixels : List Byte} {s : State}
    (hidle : s.phase = .idle) (hcheck : checkRequest width len = .ok n)
    (hread : s.inMem.readBytes 0 len = some pixels) (height : Nat) :
    exec (.rasterize width len height) s = .next (complete n (emitAll (bitmapOf pixels)
      (pixelsDone pixels n (latch ⟨0, width, len, height⟩ s)))) := by
  have hlen : pixels.length = len := Memory.readBytes_length hread
  exact pixelOperation_of_ok hidle hcheck hread (rasterize_ok.2 ⟨hlen ▸ hcheck, rfl⟩)

/-- Settles O17: the operation ends with the bitmap of its pixels in OUT, a byte for each eight. -/
theorem rasterizeCompletesWithTheBitmap : Obligations.RasterizeCompletesWithTheBitmap := by
  intro width len height n pixels s hidle hpos hmod hlen hread
  have hcheck : checkRequest width len = .ok n := checkRequest_ok.2 ⟨hpos, hmod, hlen⟩
  have hpixels : pixels.length = len := Memory.readBytes_length hread
  have hbytes : (bitmapOf pixels).length = width / 8 * n :=
    bitmapOf_length_of_rows (by rw [hpixels, Nat.mul_div_cancel' (Nat.dvd_of_mod_eq_zero hmod), hlen])
  have hgroups : width / 8 * n = len / 32 := by rw [← hbytes, bitmapOf_length, hpixels]
  refine ⟨_, bitmapOf pixels, exec_rasterize_of_ok hidle hcheck hread height, ?_, hbytes, hgroups, ?_⟩
  · rw [observe_complete_emitAll (by simp), hbytes]
  · intro j b hj hb
    exact bitmapOf_getLsbD pixels j b (by omega) hb

/-! ### One byte of a bitmap -/

/-- A byte is its bits, the most significant first. -/
theorem byte_ext_msb {x y : Byte} (h : ∀ b < 8, x.getLsbD (7 - b) = y.getLsbD (7 - b)) : x = y := by
  refine BitVec.eq_of_getLsbD_eq fun i hi => ?_
  have hbit := h (7 - i) (by omega)
  rwa [show 7 - (7 - i) = i by omega] at hbit

/-- Byte `j` of a bitmap is `v` if its bits, the most significant first, are the contributions of the
eight pixels from `8*j` on. -/
theorem bitmapOf_getElem?_eq_some {pixels : List Byte} {j : Nat} {v : Byte}
    (hj : j < pixels.length / 32)
    (h : ∀ b < 8, contribution
      (pixels.getD (4 * (8 * j + b)) 0) (pixels.getD (4 * (8 * j + b) + 1) 0)
      (pixels.getD (4 * (8 * j + b) + 2) 0) (pixels.getD (4 * (8 * j + b) + 3) 0) =
        v.getLsbD (7 - b)) :
    (bitmapOf pixels)[j]? = some v := by
  have hlt : j < (bitmapOf pixels).length := by rwa [bitmapOf_length]
  have hv : (bitmapOf pixels).getD j 0 = v :=
    byte_ext_msb fun b hb => (bitmapOf_getLsbD pixels j b hj hb).trans (h b hb)
  rw [List.getElem?_eq_getElem hlt, ← hv, List.getD_eq_getElem _ _ hlt]

/-- Byte `j` of a bitmap is a function of the bytes `32*j` to `32*j + 31` of its pixels (R96). -/
theorem bitmapOf_getElem?_congr {px px' : List Byte} {j : Nat}
    (hj : j < px.length / 32) (hj' : j < px'.length / 32)
    (h : ∀ i, 32 * j ≤ i → i < 32 * j + 32 → px[i]? = px'[i]?) :
    (bitmapOf px)[j]? = (bitmapOf px')[j]? := by
  have hbyte (i : Nat) (hlo : 32 * j ≤ i) (hhi : i < 32 * j + 32) : px.getD i 0 = px'.getD i 0 := by
    rw [List.getD_eq_getElem?_getD, h i hlo hhi, List.getD_eq_getElem?_getD]
  have hlt : j < (bitmapOf px').length := by rwa [bitmapOf_length]
  rw [List.getElem?_eq_getElem hlt, ← List.getD_eq_getElem _ 0 hlt]
  refine bitmapOf_getElem?_eq_some hj fun b hb => ?_
  rw [hbyte _ (by omega) (by omega), hbyte _ (by omega) (by omega), hbyte _ (by omega) (by omega),
    hbyte _ (by omega) (by omega), bitmapOf_getLsbD px' j b hj' hb]

/-- Settles O24: a bitmap is a function of the pixels, byte by byte, and the width only enters the
check. -/
theorem groupsAreIndependent : Obligations.GroupsAreIndependent := by
  constructor
  · intro px px' bm bm' w w' n n' j hok hok' hj hj' hagree
    obtain ⟨-, rfl⟩ := rasterize_ok.1 hok
    obtain ⟨-, rfl⟩ := rasterize_ok.1 hok'
    rw [bitmapOf_length] at hj hj'
    exact bitmapOf_getElem?_congr hj hj' hagree
  · intro px bm bm' w w' n n' hok hok'
    obtain ⟨hcheck, rfl⟩ := rasterize_ok.1 hok
    obtain ⟨hcheck', rfl⟩ := rasterize_ok.1 hok'
    obtain ⟨-, -, hlen⟩ := checkRequest_ok.1 hcheck
    obtain ⟨-, -, hlen'⟩ := checkRequest_ok.1 hcheck'
    exact ⟨rfl, hlen, hlen'⟩

/-! ### Edge cases -/

/-- A buffer whose alphas all fail the alpha test gives background only. -/
theorem bitmapOf_getElem?_of_transparent {pixels : List Byte} {j : Nat} (hj : j < pixels.length / 32)
    (h : ∀ p, 4 * p + 3 < pixels.length → (pixels.getD (4 * p + 3) 0).toNat ≤ 126) :
    (bitmapOf pixels)[j]? = some 0 := by
  refine bitmapOf_getElem?_eq_some hj fun b hb => ?_
  rw [contribution_of_alpha_le (h (8 * j + b) (by omega))]
  exact BitVec.getLsbD_zero.symm

theorem rasterize_of_check_error {pixels : List Byte} {width : Nat} {e : Failure}
    (h : checkRequest width pixels.length = .error e) : rasterize pixels width = .error e := by
  simp only [rasterize, h]

/-- Settles O25: no pixels, transparent pixels, and a width the check refuses. -/
theorem rasterizeEdgeCases : Obligations.RasterizeEdgeCases := by
  refine ⟨?empty, ?transparent, ?invalidWidth⟩
  case empty =>
    intro width hpos hmod
    exact rasterize_ok.2 ⟨checkRequest_ok.2 ⟨hpos, hmod, rfl⟩, rfl⟩
  case transparent =>
    intro pixels bitmap width n hok halpha j hj
    obtain ⟨-, rfl⟩ := rasterize_ok.1 hok
    rw [bitmapOf_length] at hj
    exact bitmapOf_getElem?_of_transparent hj halpha
  case invalidWidth =>
    intro pixels width hmod
    exact rasterize_of_check_error (checkRequest_invalidWidth.2 (.inr hmod))

end Sys2Proof.Machine

/-! PROOFS. The streaming packer: its step (O8), the bytes a run of whole groups emits (O9) and what `acc`
and `b` hold inside a group (O10). -/

namespace Sys2Proof.Machine

/-! ### One step -/

/-- Merging a contribution adds its value times the weight of bit `7 - b` (R101). -/
theorem mergeAt_eq_add (k : Bool) (b : Nat) (acc : Byte) :
    mergeAt k b acc = acc + BitVec.ofNat 8 (k.toNat * 2 ^ (7 - b)) := by
  cases k
  · simp only [mergeAt, Bool.false_eq_true, if_false, Bool.toNat_false, Nat.zero_mul, BitVec.add_zero]
  · simp only [mergeAt, if_true, Bool.toNat_true, Nat.one_mul]

/-- Settles O8: both branches of the step, `packStep_emit` and `packStep_merge`, store or emit the same
merged accumulator. -/
theorem streamingStepMergesOrEmits : Obligations.StreamingStepMergesOrEmits := by
  intro k s acc
  have hacc : acc = mergeAt k s.b.toNat s.acc := (mergeAt_eq_add k s.b.toNat s.acc).symm
  rw [hacc]
  exact ⟨packStep_emit, packStep_merge⟩

/-! ### A run of whole groups -/

/-- From an empty accumulator a run of whole groups emits its packed bytes and leaves the accumulator
empty: one use of `packStep_eight` for each byte. -/
theorem foldl_packStep_of_eight_dvd {ks : List Bool} {s : State} (ha : s.acc = 0) (hb : s.b = 0)
    (h : 8 ∣ ks.length) : ks.foldl (fun s k => packStep k s) s = emitAll (packBits ks) s := by
  fun_induction packBits ks generalizing s with
  | case1 k0 k1 k2 k3 k4 k5 k6 k7 rest ih =>
    have hrest : 8 ∣ rest.length := by simp only [List.length_cons] at h; omega
    simp only [List.foldl_cons, packStep_eight k0 k1 k2 k3 k4 k5 k6 k7 ha hb, emitAll]
    exact ih ha hb hrest
  | case2 ks hshort =>
    have hgroups : ks.length / 8 = 0 := by rw [← packBits_length, packBits.eq_2 ks hshort, List.length_nil]
    obtain rfl : ks = [] := List.eq_nil_of_length_eq_zero (by omega)
    rfl

/-- Settles O9: the bytes emitted are the packed bytes of the contributions. -/
theorem streamingPackerEmitsPack8 : Obligations.StreamingPackerEmitsPack8 := by
  intro ks n s ha hb hlen
  have hn : ks.length / 8 = n := by omega
  exact ⟨packBits ks, foldl_packStep_of_eight_dvd ha hb ⟨n, hlen⟩, by rw [packBits_length, hn],
    fun j hj => packBits_getElem? ks j (hn.symm ▸ hj)⟩

/-! ### Inside a group -/

theorem ofNat_two_pow_eq_twoPow (i : Nat) : BitVec.ofNat 8 (2 ^ i) = BitVec.twoPow 8 i := by
  apply BitVec.eq_of_toNat_eq
  rw [BitVec.toNat_ofNat, BitVec.toNat_twoPow]

/-- A clear bit and its weight are disjoint, which is why adding the weight sets the bit (R103). -/
theorem and_weight_eq_zero {acc : Byte} {i : Nat} (h : acc.getLsbD i = false) :
    acc &&& BitVec.ofNat 8 (2 ^ i) = 0#8 := by
  rw [ofNat_two_pow_eq_twoPow, BitVec.and_twoPow, h]
  rfl

theorem or_weight_eq_add {acc : Byte} {i : Nat} (h : acc.getLsbD i = false) :
    acc ||| BitVec.ofNat 8 (2 ^ i) = acc + BitVec.ofNat 8 (2 ^ i) :=
  (BitVec.add_eq_or_of_and_eq_zero _ _ (and_weight_eq_zero h)).symm

theorem toNat_add_weight_lt {acc : Byte} {i : Nat} (hi : i < 8) (h : acc.getLsbD i = false) :
    acc.toNat + 2 ^ i < 256 := by
  have hsum := BitVec.toNat_add_of_and_eq_zero (and_weight_eq_zero h)
  rw [ofNat_two_pow_eq_twoPow, BitVec.toNat_twoPow_of_lt hi] at hsum
  exact hsum ▸ BitVec.isLt _

/-- Merging at a clear bit `7 - b` sets that bit to the contribution and keeps the others. -/
theorem mergeAt_getLsbD {k : Bool} {b i : Nat} {acc : Byte} (hb : b < 8) (hi : i < 8)
    (h : acc.getLsbD (7 - b) = false) :
    (mergeAt k b acc).getLsbD (7 - i) = if i = b then k else acc.getLsbD (7 - i) := by
  cases k with
  | false =>
    change acc.getLsbD (7 - i) = _
    split
    next heq => rw [heq, h]
    next => rfl
  | true =>
    change (acc + BitVec.ofNat 8 (2 ^ (7 - b))).getLsbD (7 - i) = _
    rw [← or_weight_eq_add h, ofNat_two_pow_eq_twoPow, BitVec.getLsbD_or, BitVec.getLsbD_twoPow]
    have hbit : (7 - b = 7 - i) = (i = b) := propext (by omega)
    have hwidth : 7 - b < 8 := by omega
    simp only [hbit, hwidth, decide_true, Bool.true_and]
    split
    next heq => rw [decide_eq_true heq, Bool.or_true]
    next hne => rw [decide_eq_false hne, Bool.or_false]

/-- The invariant of R103 after the contributions `ks`: `b` counts those of the open group, which begins at
contribution `8 * (ks.length / 8)`, and `acc` holds them from bit 7 down, a bit not yet reached being 0. -/
def HoldsOpenGroup (ks : List Bool) (s : State) : Prop :=
  s.b.toNat = ks.length % 8 ∧
    ∀ i, i < 8 → s.acc.getLsbD (7 - i) = ks.getD (8 * (ks.length / 8) + i) false

theorem holdsOpenGroup_nil {s : State} (ha : s.acc = 0) (hb : s.b = 0) : HoldsOpenGroup [] s :=
  ⟨by rw [hb]; rfl, fun i _ => by rw [ha]; exact BitVec.getLsbD_zero⟩

/-- A place of the open group that no contribution has reached is clear. -/
theorem HoldsOpenGroup.getLsbD_of_le {ks : List Bool} {s : State} (h : HoldsOpenGroup ks s) {i : Nat}
    (hlo : ks.length % 8 ≤ i) (hi : i < 8) : s.acc.getLsbD (7 - i) = false := by
  obtain ⟨-, hacc⟩ := h
  rw [hacc i hi, List.getD_eq_default _ _ (by omega)]

theorem HoldsOpenGroup.concat {ks : List Bool} {s : State} (h : HoldsOpenGroup ks s) (k : Bool) :
    HoldsOpenGroup (ks ++ [k]) (packStep k s) := by
  have ⟨hb, hacc⟩ := h
  have hlen : (ks ++ [k]).length = ks.length + 1 := List.length_append
  rw [HoldsOpenGroup, hlen]
  by_cases hfull : s.b = 7
  · have hseven : ks.length % 8 = 7 := by rw [← hb, hfull]; rfl
    rw [packStep_emit hfull]
    refine ⟨?_, fun i hi => ?_⟩
    · change 0 = _
      omega
    · rw [List.getD_eq_default _ _ (by omega)]
      exact BitVec.getLsbD_zero
  · have hopen : s.b.toNat < 7 := by bv_omega
    rw [packStep_merge hfull]
    refine ⟨?_, fun i hi => ?_⟩
    · change (s.b + 1).toNat = _
      bv_omega
    · have hclear := h.getLsbD_of_le hb.ge (by omega)
      refine (mergeAt_getLsbD (by omega) hi hclear).trans ?_
      rw [show (ks.length + 1) / 8 = ks.length / 8 by omega, hacc i hi]
      by_cases hlast : i = s.b.toNat
      · have hplace : 8 * (ks.length / 8) + i = ks.length := by omega
        rw [if_pos hlast, hplace, List.getD_append_right _ _ _ _ le_rfl, Nat.sub_self]
        rfl
      · rw [if_neg hlast]
        by_cases hin : i < s.b.toNat
        · rw [List.getD_append _ _ _ _ (by omega)]
        · rw [List.getD_eq_default _ _ (by omega), List.getD_eq_default _ _ (by omega)]

/-- The packer holds its open group after any number of steps. -/
theorem holdsOpenGroup_foldl {s : State} (ha : s.acc = 0) (hb : s.b = 0) (ks : List Bool) :
    HoldsOpenGroup ks (ks.foldl (fun s k => packStep k s) s) := by
  induction ks using List.reverseRecOn with
  | nil => exact holdsOpenGroup_nil ha hb
  | append_singleton ks k ih =>
    rw [List.foldl_append]
    exact ih.concat k

/-- Settles O10: the invariant `HoldsOpenGroup` after all of `ks`, and what the clear bit `7 - b` gives. -/
theorem packerHoldsTheOpenGroup : Obligations.PackerHoldsTheOpenGroup := by
  intro ks s ha hb t
  have hopen : HoldsOpenGroup ks t := holdsOpenGroup_foldl ha hb ks
  have ⟨hcount, hacc⟩ := hopen
  have hclear : t.acc.getLsbD (7 - t.b.toNat) = false := hopen.getLsbD_of_le hcount.ge t.b.isLt
  refine ⟨hcount, fun i hi => ?_, or_weight_eq_add hclear, toNat_add_weight_lt (by omega) hclear⟩
  split
  next => rw [hacc i hi, show 8 * (ks.length / 8) = ks.length - ks.length % 8 by omega]
  next hge => exact hopen.getLsbD_of_le (Nat.le_of_not_lt hge) hi

end Sys2Proof.Machine

/-! PROOFS. FMT: what the header depends on and when its size bytes are exact (O15), and the completion of
ENCODE (O16). -/

namespace Sys2Proof.Machine

/-! ### What the header depends on -/

/-- A size byte is a function of what it states modulo 256. -/
theorem byte_ofNat_congr {m n : Nat} (h : m % 256 = n % 256) : BitVec.ofNat 8 m = BitVec.ofNat 8 n := by
  rw [← byte_ofNat_mod m, h, byte_ofNat_mod]

/-- The header as a function of the two residues of the width and of the height modulo 65536 (R115). -/
theorem headerBytes_congr {xhComputed : Bool} {w h w' h' : Nat} (hcols : w / 8 % 256 = w' / 8 % 256)
    (hhigh : xhComputed = true → w / 2048 % 256 = w' / 2048 % 256) (hrows : h % 65536 = h' % 65536) :
    headerBytes xhComputed w h = headerBytes xhComputed w' h' := by
  have hxH : (if xhComputed then BitVec.ofNat 8 (w / 2048) else 0) =
      if xhComputed then BitVec.ofNat 8 (w' / 2048) else 0 :=
    ite_congr rfl (fun hx => byte_ofNat_congr (hhigh hx)) fun _ => rfl
  have hyL : h % 256 = h' % 256 := by omega
  have hyH : h / 256 % 256 = h' / 256 % 256 := by omega
  rw [headerBytes_eq, headerBytes_eq, hxH, byte_ofNat_congr hcols, byte_ofNat_congr hyL,
    byte_ofNat_congr hyH]

/-! ### When the size bytes are exact -/

/-- With xH the constant 0, one byte states the width in byte-columns (R69). -/
theorem columns_exact_iff (width : Nat) :
    width / 8 = (lowByte (width >>> 3)).toNat + 256 * (xHigh false width).toNat ↔ width < 2048 := by
  constructor
  · intro h
    have hxL := (lowByte (width >>> 3)).isLt
    have hxH : (xHigh false width).toNat = 0 := rfl
    omega
  · exact fun h => (columns_of_sizeBytes h false).symm

/-- Two bytes state the height (R69). -/
theorem rows_exact_iff (height : Nat) :
    height = (lowByte height).toNat + 256 * (lowByte (height >>> 8)).toNat ↔ height < 65536 := by
  constructor
  · intro h
    have hyL := (lowByte height).isLt
    have hyH := (lowByte (height >>> 8)).isLt
    omega
  · exact fun h => (lowByte_add_high h).symm

/-- Settles O15: the header depends on residues only, and two bytes state exactly what is below their
bound. -/
theorem headerIsExactOnlyWithinTheCeiling : Obligations.HeaderIsExactOnlyWithinTheCeiling := by
  refine ⟨fun w h w' h' hcols hhigh hrows => headerBytes_congr hcols (fun _ => hhigh) hrows,
    fun w h w' h' hcols hrows => headerBytes_congr hcols nofun hrows,
    fun w h => ⟨_, _, _, _, rfl, columns_exact_iff w, rows_exact_iff h⟩⟩

/-! ### ENCODE -/

/-- The raster command in full (R119). -/
theorem encodeRasterCommand_eq (bitmap : List Byte) (width height : Nat) :
    encodeRasterCommand bitmap width height =
      [0x1B, 0x40, 0x0A, 0x1B, 0x53, 0x0A, 0x0A, 0x1D, 0x76, 0x30, 0x30, BitVec.ofNat 8 (width / 8),
        if Config.xhComputed then BitVec.ofNat 8 (width / 2048) else 0,
        BitVec.ofNat 8 height, BitVec.ofNat 8 (height / 256)] ++ bitmap ++ [0x0A] := by
  rw [encodeRasterCommand, encodeRasterCommandWith, headerBytes_eq]
  rfl

/-- ENCODE in IDLE, with the bitmap in IN, whatever the request says of its size (R116). -/
theorem exec_encode_of_read {len : Nat} {bitmap : List Byte} {s : State} (hidle : s.phase = .idle)
    (hread : s.inMem.readBytes 0 len = some bitmap) (width height : Nat) :
    exec (.encode width len height) s = .next (complete height
      (emitAll (encodeRasterCommand bitmap width height)
        (copyDone len height (latch ⟨1, width, len, height⟩ s)))) := by
  simp only [exec, execEncode, readData, hidle, ne_eq, not_true_eq_false, if_false, hread]

/-- Settles O16: the operation ends with the raster command of its data in OUT, emitted from offset 0. -/
theorem encodeCompletesWithTheCommand : Obligations.EncodeCompletesWithTheCommand := by
  intro width len height bitmap s hidle hread
  have hlen : bitmap.length = len := Memory.readBytes_length hread
  refine ⟨_, exec_encode_of_read hidle hread width height, ?_⟩
  rw [observe_complete_emitAll (by simp), encodeRasterCommand_length, hlen, encodeRasterCommand_eq]

end Sys2Proof.Machine

/-! PROOFS. The block steps of a running operation as exact next states (O33 to O36). A next state that an
obligation writes out field by field is the target of one `BlockStep` constructor, and `blockStep_of` computes
the step from it. -/

namespace Sys2Proof.Machine

/-- The preamble's bytes (R134). -/
theorem preamble_eq : preamble = [0x1B, 0x40, 0x0A, 0x1B, 0x53, 0x0A, 0x0A] := rfl

/-- Settles O33: byte `idx` of the preamble is emitted, and the last one ends the phase. -/
theorem preambleStepEmitsOneByte : Obligations.PreambleStepEmitsOneByte := by
  intro s v hphase hv
  rw [← preamble_eq] at hv
  exact ⟨fun hlast => blockStep_of (.preEnd v hphase hv hlast),
    fun hmore => blockStep_of (.pre v hphase hv hmore)⟩

/-- Settles O34: byte `idx` of the header is emitted, and the last one leads to the payload's phase. -/
theorem headerStepEmitsOneByte : Obligations.HeaderStepEmitsOneByte := by
  intro s v hphase hv
  exact ⟨fun hlast => blockStep_of (.hdrEnd v hphase hv hlast),
    fun hmore => blockStep_of (.hdr v hphase hv hmore)⟩

/-- Settles O35: the four bytes of pixel `p` are the pixel that the step reads, and with every pixel counted
the operation code decides where the phase ends. -/
theorem pixelStepThresholdsAndPacks : Obligations.PixelStepThresholdsAndPacks := by
  intro s hphase
  refine ⟨fun red green blue alpha hp hred hgreen hblue halpha => ?_,
    fun hp hop => blockStep_of (.pixComplete hphase hp hop),
    fun hp hop => blockStep_of (.pixEnd hphase hp hop)⟩
  have hread : readPixel s.inMem s.p = some (red, green, blue, alpha) :=
    readPixel_eq_some.2 ⟨hred, hgreen, hblue, halpha⟩
  exact blockStep_of (.pixel red green blue alpha hphase hp hread)

/-- Settles O36: a copy step, the end of the copy phase, and the trailer with the completion. -/
theorem copyAndTrailerSteps : Obligations.CopyAndTrailerSteps := by
  intro s
  exact ⟨fun v hphase hidx hv => blockStep_of (.copy v hphase hidx hv),
    fun hphase hidx => blockStep_of (.copyEnd hphase hidx),
    fun hphase => blockStep_of (.trl hphase)⟩

end Sys2Proof.Machine

/-! PROOFS. The failures of RASTERIZE and PRINT: the request's check decides before IN is read (O19). -/

namespace Sys2Proof.Machine

/-- A pixel operation whose request fails the check ends in the failed state, whatever its function and
whatever IN holds (R136, R164). -/
theorem pixelOperation_of_check_error {f : List Byte → Nat → Except Failure (List Byte × Nat)}
    {r : Request} {s : State} {e : Failure} (hidle : s.phase = .idle)
    (hcheck : checkRequest r.width r.len = .error e) :
    pixelOperation f r s = .next (raise e (latch r s)) := by
  simp only [pixelOperation, hidle, ne_eq, not_true_eq_false, if_false, hcheck]

/-- Settles O19: the check answers InvalidWidth for every length, and both operations end with its answer. -/
theorem invalidWidthFailsFirst : Obligations.InvalidWidthFailsFirst := by
  intro width len height s hidle hwidth
  have hcheck : checkRequest width len = .error .invalidWidth := checkRequest_invalidWidth.2 hwidth
  exact ⟨pixelOperation_of_check_error (r := ⟨0, width, len, height⟩) hidle hcheck,
    pixelOperation_of_check_error (r := ⟨2, width, len, height⟩) hidle hcheck⟩

end Sys2Proof.Machine

/-! PROOFS. The reset input: the step that takes it, from every phase (O43). -/

namespace Sys2Proof.Machine

/-- Outside DONE nothing is open to the host (R45, R190). -/
theorem observe_eq_none_of_ne_done {s : State} (h : s.phase ≠ .done) : observe s = none := if_neg h

/-- An instruction is fetched only when one is handed over whole. -/
theorem fetch_eq_none_of_reset {s : State} {rest : List HostMove} (hhost : s.host = .reset :: rest) :
    fetch s = none := by
  unfold fetch
  cases s.phase <;> simp only [hhost]

/-- With reset the host's next move, the step is the return to IDLE, whatever the phase (R180). -/
theorem step_eq_toIdle_of_reset {s : State} {rest : List HostMove} (hhost : s.host = .reset :: rest) :
    step s = .next (toIdle { s with host := rest }) := by
  simp only [step, fetch_eq_none_of_reset hhost, machineStep, hhost, resetBlock]

/-- Settles O43: the step is the return to IDLE, and only DONE has something to observe. -/
theorem resetLeadsToIdleFromEveryPhase : Obligations.ResetLeadsToIdleFromEveryPhase := by
  intro s rest hhost
  have hidle : (toIdle { s with host := rest }).phase ≠ .done := by simp
  exact ⟨_, step_eq_toIdle_of_reset hhost, toIdle_phase _, toIdle_host _,
    observe_eq_none_of_ne_done hidle⟩

end Sys2Proof.Machine

/-! PROOFS. The encodings, both ways: decoding what is encoded (O55), encoding what is decoded (O56), and the
words written out (O58). -/

namespace Sys2Proof.Machine

/-! ### From the instruction to its word and back -/

/-- The packed byte, written from its bits, is PACK8 of the contributions (R62, R100). -/
theorem ofBoolListBE_eq_pack8 (k0 k1 k2 k3 k4 k5 k6 k7 : Bool) :
    BitVec.ofBoolListBE [k0, k1, k2, k3, k4, k5, k6, k7] = pack8 k0 k1 k2 k3 k4 k5 k6 k7 := by
  revert k0 k1 k2 k3 k4 k5 k6 k7; decide

/-- The bits of PACK8 decode to its contributions (R62). -/
theorem decodePacked_pack8 (k0 k1 k2 k3 k4 k5 k6 k7 : Bool) :
    decodePacked [pack8 k0 k1 k2 k3 k4 k5 k6 k7] = .ok (.pack k0 k1 k2 k3 k4 k5 k6 k7) := by
  have bit := pack8_getLsbD k0 k1 k2 k3 k4 k5 k6 k7
  simp only [decodePacked, Except.ok.injEq, Instr.pack.injEq]
  exact ⟨bit 0, bit 1, bit 2, bit 3, bit 4, bit 5, bit 6, bit 7⟩

/-- A word that is one whole command decodes to it. -/
theorem decode_cmd_of_command {bytes : List Byte} {i : Instr}
    (h : decodeCommand bytes = .ok (i, [])) : decode (.cmd bytes) = .ok i := by
  simp only [decode, h]

/-- With xH the constant 0, a well-formed RASTER is one whose width is below the ceiling of one size byte and
whose header states its payload (R69, R73). -/
theorem wellFormed_raster_iff {width height : Nat} {bitmap : List Byte} :
    (Instr.raster width height bitmap).wellFormed = true ↔
      width % 8 = 0 ∧ width < 2048 ∧ height < 65536 ∧ bitmap.length = width / 8 * height := by
  have hlimit : Config.byteColumnLimit = 256 := rfl
  simp only [Instr.wellFormed, hlimit, Bool.and_eq_true, decide_eq_true_eq]
  omega

/-- Settles O55: a request carries its operands, a pixel and a command are read back byte by byte, and a
packed byte bit by bit. -/
theorem decodeOfEncodeIsTheInstruction : Obligations.DecodeOfEncodeIsTheInstruction := by
  intro i hwf
  cases i with
  | rasterize | encode | print | reservedOp3 | thresh | init | stdmode | lf => rfl
  | pack k0 k1 k2 k3 k4 k5 k6 k7 =>
    rw [encode, ofBoolListBE_eq_pack8]
    exact decodePacked_pack8 k0 k1 k2 k3 k4 k5 k6 k7
  | raster width height bitmap =>
    obtain ⟨hmod, hwidth, hrows, hlen⟩ := wellFormed_raster_iff.1 hwf
    have hread := decodeCommand_raster hmod hwidth hrows hlen []
    rw [List.append_nil] at hread
    exact decode_cmd_of_command hread

/-! ### From the word to its instruction and back -/

/-- A byte, from a number whose low eight bits it is. -/
theorem byte_ofNat_eq {n : Nat} {v : Byte} (h : n % 256 = v.toNat) : BitVec.ofNat 8 n = v :=
  BitVec.eq_of_toNat_eq (by rw [BitVec.toNat_ofNat, ← h])

/-- The header of what the size bytes state is those size bytes, xH being 0 (R67, R68). -/
theorem headerBytes_of_sizeBytes (xL yL yH : Byte) :
    headerBytes Config.xhComputed (8 * xL.toNat) (yL.toNat + 256 * yH.toNat) =
      rasterTag ++ [xL, 0, yL, yH] := by
  have := xL.isLt; have := yL.isLt; have := yH.isLt
  have hcols : BitVec.ofNat 8 (8 * xL.toNat / 8) = xL := byte_ofNat_eq (by omega)
  have hlow : BitVec.ofNat 8 (yL.toNat + 256 * yH.toNat) = yL := byte_ofNat_eq (by omega)
  have hhigh : BitVec.ofNat 8 ((yL.toNat + 256 * yH.toNat) / 256) = yH := byte_ofNat_eq (by omega)
  rw [headerBytes_eq, hcols, hlow, hhigh]
  rfl

/-- What follows the tag of a RASTER is its size bytes, its payload and the rest (R72, R73). -/
theorem decodeRaster_inv {bytes rest : List Byte} {i : Instr}
    (h : decodeRaster bytes = .ok (i, rest)) :
    ∃ enc, encode i = .cmd enc ∧ rasterTag ++ bytes = enc ++ rest := by
  unfold decodeRaster at h
  split at h
  next xL xH yL yH payload =>
    dsimp only at h
    split at h
    · cases h
    · split at h
      · cases h
      · next hxH _ =>
        simp only [Except.ok.injEq, Prod.mk.injEq] at h
        obtain ⟨rfl, rfl⟩ := h
        obtain rfl : xH = 0 := by
          by_contra hne
          exact hxH ⟨rfl, hne⟩
        have hcols : xL.toNat + 256 * (0 : Byte).toNat = xL.toNat := rfl
        refine ⟨_, rfl, ?_⟩
        rw [hcols, headerBytes_of_sizeBytes, List.append_assoc, List.take_append_drop]
        rfl
  next => cases h

/-- The first command of a stream is its encoding, which the rest follows. -/
theorem decodeCommand_inv {bytes rest : List Byte} {i : Instr}
    (h : decodeCommand bytes = .ok (i, rest)) :
    ∃ enc, encode i = .cmd enc ∧ bytes = enc ++ rest := by
  have split_at (n : Nat) (enc : List Byte) (htake : bytes.take n = enc) :
      bytes = enc ++ bytes.drop n := by rw [← htake, List.take_append_drop]
  unfold decodeCommand at h
  split at h
  next hbytes => cases h; exact ⟨_, rfl, split_at _ _ hbytes⟩
  next =>
  split at h
  next hbytes => cases h; exact ⟨_, rfl, split_at _ _ hbytes⟩
  next =>
  split at h
  next hbytes => cases h; exact ⟨_, rfl, split_at _ _ hbytes⟩
  next =>
  split at h
  next hbytes =>
    rw [split_at _ _ hbytes]
    exact decodeRaster_inv h
  next => cases h

/-- The four operation codes (R63). -/
theorem op_cases (op : BitVec 2) : op = 0 ∨ op = 1 ∨ op = 2 ∨ op = 3 := by revert op; decide

theorem encode_decodeRequest (r : Request) : encode (decodeRequest r) = .req r := by
  obtain ⟨op, width, len, height⟩ := r
  rcases op_cases op with rfl | rfl | rfl | rfl <;> rfl

/-- Settles O56: each decoder accepts only what the encoder writes. -/
theorem encodeOfDecodeIsTheWord : Obligations.EncodeOfDecodeIsTheWord := by
  intro e i h
  cases e with
  | req r =>
    cases h
    exact encode_decodeRequest r
  | pixel bytes =>
    simp only [decode] at h
    unfold decodePixel at h
    split at h
    next => cases h; rfl
    next => cases h
  | packed bytes =>
    simp only [decode] at h
    unfold decodePacked at h
    split at h
    next v =>
      cases h
      rw [encode, ofBoolListBE_eq_pack8, pack8_bits]
    next => cases h
  | cmd bytes =>
    simp only [decode] at h
    split at h
    next => cases h
    next hcommand =>
      cases h
      obtain ⟨enc, henc, rfl⟩ := decodeCommand_inv hcommand
      rw [henc, List.append_nil]
    next => cases h

/-- Settles O58: each word is evaluated by the decoder. -/
theorem wordsDecodeAsTheSpecWritesThem : Obligations.WordsDecodeAsTheSpecWritesThem := by
  unfold Obligations.WordsDecodeAsTheSpecWritesThem
  decide

end Sys2Proof.Machine

/-! PROOFS. The step as an equation, one for each move of the host (R132, R135, R150), and what follows from it
alone: O26, O27, O29 to O32, O37, O42 and O45. -/

namespace Sys2Proof.Machine

/-! ### The step for each of the host's moves -/

/-- The step is the step machine's, unless an instruction is handed over whole in IDLE. -/
theorem step_eq_machineStep {s : State}
    (h : ∀ e data rest, s.host = .operate e data :: rest → s.phase ≠ .idle) :
    step s = machineStep s := by
  have hfetch : fetch s = none := by
    unfold fetch
    split
    next hphase hhost => exact absurd hphase (h _ _ _ hhost)
    next => rfl
  simp only [step, hfetch]

theorem step_of_nil {s : State} (hhost : s.host = []) : step s = blockStep s := by
  rw [step_eq_machineStep (by simp [hhost])]
  simp only [machineStep, hhost]

theorem step_of_wait {s : State} {rest : List HostMove} (hhost : s.host = .wait :: rest) :
    step s = blockStep { s with host := rest } := by
  rw [step_eq_machineStep (by simp [hhost])]
  simp only [machineStep, hhost]

theorem step_of_issue {s : State} {r : Request} {data : List Byte} {rest : List HostMove}
    (hidle : s.phase = .idle) (hhost : s.host = .issue r data :: rest) :
    step s = .next (offer r data { s with host := rest }) := by
  rw [step_eq_machineStep (by simp [hhost])]
  simp only [machineStep, hhost, if_pos hidle]

theorem step_of_issue_busy {s : State} {r : Request} {data : List Byte} {rest : List HostMove}
    (hbusy : s.phase ≠ .idle) (hhost : s.host = .issue r data :: rest) :
    step s = blockStep { s with host := rest } := by
  rw [step_eq_machineStep (by simp [hhost])]
  simp only [machineStep, hhost, if_neg hbusy]

theorem step_of_acknowledge {s : State} {rest : List HostMove} (hdone : s.phase = .done)
    (hhost : s.host = .acknowledge :: rest) : step s = .next (toIdle { s with host := rest }) := by
  rw [step_eq_machineStep (by simp [hhost])]
  simp only [machineStep, hhost, if_pos hdone, acknowledge]

theorem step_of_acknowledge_early {s : State} {rest : List HostMove} (hbusy : s.phase ≠ .done)
    (hhost : s.host = .acknowledge :: rest) : step s = blockStep s := by
  rw [step_eq_machineStep (by simp [hhost])]
  simp only [machineStep, hhost, if_neg hbusy]

/-- An instruction handed over in IDLE is fetched, together with its data (R20, R21). -/
theorem fetch_of_operate {s : State} {e : Encoded} {data : List Byte} {rest : List HostMove}
    (hidle : s.phase = .idle) (hhost : s.host = .operate e data :: rest) :
    fetch s = some (e, supplyData e data { s with host := rest }) := by
  simp only [fetch, hidle, hhost]

theorem step_of_operate {s : State} {e : Encoded} {data : List Byte} {rest : List HostMove} {i : Instr}
    (hidle : s.phase = .idle) (hhost : s.host = .operate e data :: rest) (hdecode : decode e = .ok i) :
    step s = exec i (supplyData e data { s with host := rest }) := by
  simp only [step, fetch_of_operate hidle hhost, hdecode]

theorem step_of_operate_error {s : State} {e : Encoded} {data : List Byte} {rest : List HostMove}
    {d : DecodeError} (hidle : s.phase = .idle) (hhost : s.host = .operate e data :: rest)
    (hdecode : decode e = .error d) : step s = .refused (.notAnEncoding d) := by
  simp only [step, fetch_of_operate hidle hhost, hdecode]

theorem step_of_operate_busy {s : State} {e : Encoded} {data : List Byte} {rest : List HostMove}
    (hbusy : s.phase ≠ .idle) (hhost : s.host = .operate e data :: rest) :
    step s = blockStep { s with host := rest } := by
  rw [step_eq_machineStep fun _ _ _ _ => hbusy]
  simp only [machineStep, hhost]

/-- In IDLE and in DONE the block holds its state (R132, R150). -/
theorem blockStep_hold {s : State} (h : s.phase = .idle ∨ s.phase = .done) : blockStep s = .next s :=
  blockStep_of (.hold h)

/-- Settles O30: the moves that are not enabled, one equation each. -/
theorem stepWithoutAHostStepIsTheBlocksOwn : Obligations.StepWithoutAHostStepIsTheBlocksOwn := by
  intro s
  exact ⟨step_of_nil, fun rest hhost hbusy => step_of_acknowledge_early hbusy hhost,
    fun rest => step_of_wait,
    fun hbusy => ⟨fun r data rest => step_of_issue_busy hbusy,
      fun e data rest => step_of_operate_busy hbusy⟩,
    blockStep_hold⟩

/-! ### DONE and IDLE -/

/-- In DONE every move but the acknowledgement and the reset is dropped (R150). -/
theorem step_of_done {s : State} {m : HostMove} {rest : List HostMove} (hdone : s.phase = .done)
    (hhost : s.host = m :: rest) (hack : m ≠ .acknowledge) (hreset : m ≠ .reset) :
    step s = .next { s with host := rest } := by
  have hhold : blockStep { s with host := rest } = .next { s with host := rest } :=
    blockStep_hold (.inr hdone)
  have hbusy : s.phase ≠ .idle := by simp [hdone]
  cases m with
  | wait => exact (step_of_wait hhost).trans hhold
  | issue => exact (step_of_issue_busy hbusy hhost).trans hhold
  | operate => exact (step_of_operate_busy hbusy hhost).trans hhold
  | acknowledge => exact absurd rfl hack
  | reset => exact absurd rfl hreset

/-- Settles O42: DONE holds, drops, or is left by the acknowledgement. -/
theorem acknowledgementLeadsToIdle : Obligations.AcknowledgementLeadsToIdle := by
  intro s hdone
  refine ⟨fun hhost => (step_of_nil hhost).trans (blockStep_hold (.inr hdone)),
    fun m rest => step_of_done hdone, fun rest hhost => ?_⟩
  exact ⟨_, step_of_acknowledge hdone hhost, toIdle_phase _, toIdle_host _,
    observe_eq_none_of_ne_done (by simp)⟩

/-- An operation presented to a busy block has no effect (R135). -/
theorem pixelOperation_of_busy {f : List Byte → Nat → Except Failure (List Byte × Nat)} {r : Request}
    {s : State} (hbusy : s.phase ≠ .idle) : pixelOperation f r s = .next s := if_pos hbusy

theorem execEncode_of_busy {width len height : Nat} {s : State} (hbusy : s.phase ≠ .idle) :
    execEncode width len height s = .next s := if_pos hbusy

/-- Settles O27: the three operations ask for IDLE first. -/
theorem busyBlockTakesNoOperation : Obligations.BusyBlockTakesNoOperation := by
  intro width len height s hbusy
  exact ⟨pixelOperation_of_busy hbusy, execEncode_of_busy hbusy, pixelOperation_of_busy hbusy⟩

/-! ### A request presented in IDLE -/

/-- The reserved code is not accepted (R63). -/
theorem offer_reserved {r : Request} (hop : r.op = 3) (data : List Byte) (s : State) :
    offer r data s = s := if_pos hop

/-- The acceptance of an ENCODE (R136). -/
theorem offer_encode {r : Request} (hop : r.op = 1) (data : List Byte) (s : State) :
    offer r data s = { latch r { s with inMem := Memory.ofBytes data } with
      h := r.height, npix := 0, phase := .pre } := by
  simp [offer, accept, hop]

/-- The acceptance of a RASTERIZE or PRINT that passes the check (R136). -/
theorem offer_pixels {r : Request} {n : Nat} (hop : r.op = 0 ∨ r.op = 2)
    (hcheck : checkRequest r.width r.len = .ok n) (data : List Byte) (s : State) :
    offer r data s = { latch r { s with inMem := Memory.ofBytes data } with
      h := n, npix := r.len / 4, phase := if r.op = 0 then .pix else .pre } := by
  rcases hop with hop | hop <;> simp [offer, accept, hop, hcheck]

/-- The acceptance of a RASTERIZE or PRINT that fails the check (R149). -/
theorem offer_failing {r : Request} {e : Failure} (hop : r.op = 0 ∨ r.op = 2)
    (hcheck : checkRequest r.width r.len = .error e) (data : List Byte) (s : State) :
    offer r data s = raise e (latch r { s with inMem := Memory.ofBytes data }) := by
  rcases hop with hop | hop <;> simp [offer, accept, hop, hcheck]

/-- Settles O26: its row, and its request, whose offer is the state itself. -/
theorem reservedOperationIsNotAccepted : Obligations.ReservedOperationIsNotAccepted := by
  intro width len height data rest s
  refine ⟨rfl, fun hidle hhost => ?_⟩
  rw [step_of_issue hidle hhost, offer_reserved rfl]

/-- Settles O31: the four outcomes of the acceptance, by the operation code and the check. -/
theorem acceptStepLatchesTheRequest : Obligations.AcceptStepLatchesTheRequest := by
  intro s width len height n data rest hidle
  refine ⟨fun hhost => ?encode, fun hpos hmod hlen => ?valid, fun op hop hhost => ?failing⟩
  case encode =>
    rw [step_of_issue hidle hhost, offer_encode rfl]
    rfl
  case valid =>
    have hcheck : checkRequest width len = .ok n := checkRequest_ok.2 ⟨hpos, hmod, hlen⟩
    have hnpix : len / 4 = width * n := by
      rw [hlen, Nat.mul_assoc, Nat.mul_div_cancel_left _ (by decide)]
    refine ⟨fun hhost => ?_, fun hhost => ?_⟩
    · rw [step_of_issue hidle hhost, offer_pixels (.inl rfl) hcheck]
      simp only [hnpix]
      rfl
    · rw [step_of_issue hidle hhost, offer_pixels (.inr rfl) hcheck]
      simp only [hnpix]
      rfl
  case failing =>
    have failed {e : Failure} (hcheck : checkRequest width len = .error e) :
        step s = .next (raise e (latch ⟨op, width, len, height⟩
          { s with host := rest, inMem := Memory.ofBytes data })) := by
      rw [step_of_issue hidle hhost, offer_failing hop hcheck]
    exact ⟨fun hwidth => failed (checkRequest_invalidWidth.2 hwidth),
      fun hpos hmod hlen => failed (checkRequest_malformed.2 ⟨hpos, hmod, hlen⟩)⟩

/-- A failed operation is observed as its code and no byte (R149, R164). -/
theorem observe_raise (e : Failure) (s : State) : observe (raise e s) = some ⟨e.code, 0, 0, []⟩ :=
  observe_done rfl rfl

/-- Settles O32: the failed state is the one R149 gives, reached by the acceptance step. -/
theorem failedRequestEndsInOneStep : Obligations.FailedRequestEndsInOneStep := by
  intro s r e data rest hidle hop hhost hfails
  have hcheck : checkRequest r.width r.len = .error e := by
    obtain ⟨hwidth, rfl⟩ | ⟨hpos, hmod, hlen, rfl⟩ := hfails
    · exact checkRequest_invalidWidth.2 hwidth
    · exact checkRequest_malformed.2 ⟨hpos, hmod, hlen⟩
  refine ⟨_, step_of_issue hidle hhost, ?_⟩
  rw [offer_failing hop hcheck]
  exact ⟨observe_raise e _, rfl, rfl, rfl, rfl, rfl⟩

/-- Settles O45: the reset state holds no move, and the acceptance of an ENCODE leads to PRE. -/
theorem resetStateIsIdleAndReady : Obligations.ResetStateIsIdleAndReady := by
  refine ⟨rfl, rfl, rfl, observe_eq_none_of_ne_done (by decide),
    (step_of_nil rfl).trans (blockStep_hold (.inl rfl)), fun width len height data => ?_⟩
  refine ⟨_, step_of_issue rfl rfl, ?_⟩
  rw [offer_encode rfl]

/-! ### An instruction handed over whole -/

/-- Settles O29: a word that decodes is the encoding of its instruction, which decides where the data
goes. -/
theorem stepRunsTheDecodedInstruction : Obligations.StepRunsTheDecodedInstruction := by
  intro s e data rest hidle hhost
  refine ⟨fun i hdecode => ?_, fun d => step_of_operate_error hidle hhost⟩
  obtain rfl : encode i = e := encodeOfDecodeIsTheWord e i hdecode
  rw [step_of_operate hidle hhost hdecode]
  cases i <;> rfl

/-! ### Where no rule enables a step -/

/-- Settles O37: the counter is past the phase's bytes or pixels. -/
theorem noEnabledStepStopsByName : Obligations.NoEnabledStepStopsByName := by
  intro s
  refine ⟨fun hphase hidx => ?pre, fun hphase hidx => ?hdr, fun hphase hp => ?pix, fun hphase hidx => ?copy⟩
  case pre =>
    have hnone : preamble[s.idx]? = none := List.getElem?_eq_none hidx
    simp only [blockStep, hphase, preStep, hnone]
  case hdr =>
    have hnone : (headerBytes Config.xhComputed s.width s.h)[s.idx]? = none :=
      List.getElem?_eq_none (by rwa [headerBytes_length])
    simp only [blockStep, hphase, hdrStep, hnone]
  case pix =>
    simp only [blockStep, hphase, pixStep, if_neg hp.not_gt, if_neg hp.ne']
  case copy =>
    simp only [blockStep, hphase, copyStep, if_neg hidx.not_gt, if_neg hidx.ne']

end Sys2Proof.Machine

/-! PROOFS. The step machine refines the function level (O38 to O41): each phase of a running operation is a
run of block steps that emits the phase's part of the result, and the phases follow one another. -/

namespace Sys2Proof.Machine

/-! ### Runs in which nothing is observable before the end -/

/-- `n` steps lead from the first state to the second, and none of them begins in DONE. -/
inductive Runs : Nat → State → State → Prop
  | refl (s : State) : Runs 0 s s
  | step {n : Nat} {s t u : State} (hrun : s.phase ≠ .done) (hstep : step s = .next t)
      (hrest : Runs n t u) : Runs (n + 1) s u

theorem Runs.single {s t : State} (hrun : s.phase ≠ .done) (hstep : Machine.step s = .next t) :
    Runs 1 s t := .step hrun hstep (.refl t)

theorem Runs.trans {m n : Nat} {s t u : State} (h : Runs m s t) (h' : Runs n t u) :
    Runs (m + n) s u := by
  induction h with
  | refl => rwa [Nat.zero_add]
  | step hrun hstep _ ih =>
    rw [Nat.add_right_comm]
    exact .step hrun hstep (ih h')

theorem Runs.run_eq {n : Nat} {s t : State} (h : Runs n s t) : run n s = .next t := by
  induction h with
  | refl => rfl
  | step _ hstep _ ih => simp only [run, hstep, ih]

/-- Before the end of such a run nothing is observable (R45). -/
theorem Runs.observe_eq_none {n m : Nat} {s t : State} (h : Runs n s t) (hm : m < n) :
    observeOutcome (run m s) = none := by
  induction h generalizing m with
  | refl => omega
  | step hrun hstep _ ih =>
    cases m with
    | zero => exact observe_eq_none_of_ne_done hrun
    | succ m =>
      simp only [run, hstep]
      exact ih (by omega)

/-- While the host holds, the steps before DONE are the block's own (R132, R150). -/
theorem step_of_hostHolds {s : State} (hhost : hostHolds s.host = true) (hrun : s.phase ≠ .done) :
    step s = blockStep s := by
  cases h : s.host with
  | nil => exact step_of_nil h
  | cons m rest =>
    rw [h] at hhost
    cases m with
    | acknowledge => exact step_of_acknowledge_early hrun h
    | wait | issue | reset | operate => cases hhost

theorem Runs.block {s t : State} (h : BlockStep s t) (hhost : hostHolds s.host = true)
    (hrun : s.phase ≠ .done) : Runs 1 s t :=
  .single hrun ((step_of_hostHolds hhost hrun).trans (blockStep_of h))

/-- A sequence of states, each a block step after the one before. -/
theorem Runs.sequence {σ : Nat → State} {n : Nat} (hstep : ∀ i < n, BlockStep (σ i) (σ (i + 1)))
    (hhost : ∀ i < n, hostHolds (σ i).host = true) (hrun : ∀ i < n, (σ i).phase ≠ .done) :
    Runs n (σ 0) (σ n) := by
  induction n with
  | zero => exact .refl _
  | succ n ih =>
    exact (ih (fun i hi => hstep i (by omega)) (fun i hi => hhost i (by omega))
      fun i hi => hrun i (by omega)).trans (.block (hstep n n.lt_succ_self) (hhost n n.lt_succ_self)
        (hrun n n.lt_succ_self))

/-! ### Emission, one byte a step -/

@[simp] theorem emitAll_phase (vs : List Byte) (s : State) : (emitAll vs s).phase = s.phase := by rw [emitAll_eq]
@[simp] theorem emitAll_op (vs : List Byte) (s : State) : (emitAll vs s).op = s.op := by rw [emitAll_eq]
@[simp] theorem emitAll_width (vs : List Byte) (s : State) : (emitAll vs s).width = s.width := by rw [emitAll_eq]
@[simp] theorem emitAll_len (vs : List Byte) (s : State) : (emitAll vs s).len = s.len := by rw [emitAll_eq]
@[simp] theorem emitAll_height (vs : List Byte) (s : State) : (emitAll vs s).height = s.height := by rw [emitAll_eq]
@[simp] theorem emitAll_acc (vs : List Byte) (s : State) : (emitAll vs s).acc = s.acc := by rw [emitAll_eq]
@[simp] theorem emitAll_b (vs : List Byte) (s : State) : (emitAll vs s).b = s.b := by rw [emitAll_eq]
@[simp] theorem emitAll_h (vs : List Byte) (s : State) : (emitAll vs s).h = s.h := by rw [emitAll_eq]
@[simp] theorem emitAll_p (vs : List Byte) (s : State) : (emitAll vs s).p = s.p := by rw [emitAll_eq]
@[simp] theorem emitAll_k (vs : List Byte) (s : State) : (emitAll vs s).k = s.k := by rw [emitAll_eq]
@[simp] theorem emitAll_npix (vs : List Byte) (s : State) : (emitAll vs s).npix = s.npix := by rw [emitAll_eq]
@[simp] theorem emitAll_inMem (vs : List Byte) (s : State) : (emitAll vs s).inMem = s.inMem := by rw [emitAll_eq]
@[simp] theorem emitAll_host (vs : List Byte) (s : State) : (emitAll vs s).host = s.host := by rw [emitAll_eq]

/-- The state that has emitted the first `i` of `bytes`, counting them in `idx`. -/
def emitted (bytes : List Byte) (s : State) (i : Nat) : State :=
  { emitAll (bytes.take i) s with idx := i }

theorem emitted_zero {s : State} (h : s.idx = 0) (bytes : List Byte) : emitted bytes s 0 = s := by
  cases s
  cases h
  rfl

theorem emit_emitted {bytes : List Byte} {i : Nat} {v : Byte} (hv : bytes[i]? = some v) (s : State) :
    emit v (emitted bytes s i) = { emitAll (bytes.take (i + 1)) s with idx := i } := by
  rw [List.take_add_one, hv, emitAll_append]
  rfl

theorem emitted_succ {bytes : List Byte} {i : Nat} {v : Byte} (hv : bytes[i]? = some v) (s : State) :
    { emit v (emitted bytes s i) with idx := i + 1 } = emitted bytes s (i + 1) := by
  rw [emit_emitted hv]
  rfl

/-- Block steps that each emit the byte at `idx` and advance `idx`. -/
theorem runs_emitted {bytes : List Byte} {s : State} {n : Nat} (hn : n ≤ bytes.length)
    (hidx : s.idx = 0) (hhost : hostHolds s.host = true) (hrun : s.phase ≠ .done)
    (hstep : ∀ i v, i < n → bytes[i]? = some v →
      BlockStep (emitted bytes s i) { emit v (emitted bytes s i) with idx := i + 1 }) :
    Runs n s (emitted bytes s n) := by
  have hseq := Runs.sequence (σ := emitted bytes s) (n := n) (fun i hi => ?_)
    (fun i _ => by simpa [emitted] using hhost) (fun i _ => by simpa [emitted] using hrun)
  · rwa [emitted_zero hidx] at hseq
  · have hv : bytes[i]? = some bytes[i] := List.getElem?_eq_getElem (by omega)
    rw [← emitted_succ hv]
    exact hstep i _ hi hv

/-- Such steps, and one more that emits the last byte and enters the next phase. -/
theorem runs_emitted_last {bytes : List Byte} {s : State} {n : Nat} {next : Phase}
    (hn : bytes.length = n + 1) (hidx : s.idx = 0) (hhost : hostHolds s.host = true)
    (hrun : s.phase ≠ .done)
    (hstep : ∀ i v, i < n → bytes[i]? = some v →
      BlockStep (emitted bytes s i) { emit v (emitted bytes s i) with idx := i + 1 })
    (hlast : ∀ v, bytes[n]? = some v →
      BlockStep (emitted bytes s n) { emit v (emitted bytes s n) with phase := next, idx := 0 }) :
    Runs (n + 1) s { emitAll bytes s with phase := next, idx := 0 } := by
  have hv : bytes[n]? = some bytes[n] := List.getElem?_eq_getElem (by omega)
  have hend := hlast _ hv
  rw [emit_emitted hv, List.take_of_length_le hn.le] at hend
  exact (runs_emitted (by omega) hidx hhost hrun hstep).trans
    (.block hend (by simpa [emitted] using hhost) (by simpa [emitted] using hrun))

/-! ### The preamble and the header -/

/-- The preamble phase emits the preamble (R137). -/
theorem runs_pre {s : State} (hphase : s.phase = .pre) (hidx : s.idx = 0)
    (hhost : hostHolds s.host = true) :
    Runs 7 s { emitAll preamble s with phase := .hdr, idx := 0 } := by
  have hemitted (i : Nat) : (emitted preamble s i).phase = .pre := by simpa [emitted] using hphase
  exact runs_emitted_last preamble_length hidx hhost (by simp [hphase])
    (fun i v hi hv => .pre v (hemitted i) hv hi.ne) fun v hv => .preEnd v (hemitted 6) hv rfl

/-- The header phase emits the header of the width and of `h` (R138). -/
theorem runs_hdr {s : State} (hphase : s.phase = .hdr) (hidx : s.idx = 0)
    (hhost : hostHolds s.host = true) :
    Runs 8 s { emitAll (headerBytes Config.xhComputed s.width s.h) s with
      phase := if s.op = 2 then .pix else .copy, idx := 0 } := by
  have hemitted (bytes : List Byte) (i : Nat) : (emitted bytes s i).phase = .hdr ∧
      (emitted bytes s i).op = s.op ∧ (emitted bytes s i).width = s.width ∧
      (emitted bytes s i).h = s.h := by simpa [emitted] using hphase
  refine runs_emitted_last (headerBytes_length ..) hidx hhost (by simp [hphase])
    (fun i v hi hv => ?_) fun v hv => ?_
  · obtain ⟨hp, -, hw, hh⟩ := hemitted (headerBytes Config.xhComputed s.width s.h) i
    exact .hdr v hp (by rwa [hw, hh]) hi.ne
  · obtain ⟨hp, hop, hw, hh⟩ := hemitted (headerBytes Config.xhComputed s.width s.h) 7
    rw [← hop]
    exact .hdrEnd v hp (by rwa [hw, hh]) rfl

/-- The two phases before the payload, fifteen bytes (R71). -/
theorem runs_head {s : State} (hphase : s.phase = .pre) (hidx : s.idx = 0)
    (hhost : hostHolds s.host = true) :
    Runs 15 s { emitAll (preamble ++ headerBytes Config.xhComputed s.width s.h) s with
      phase := if s.op = 2 then .pix else .copy, idx := 0 } := by
  have hhdr := runs_hdr (s := { emitAll preamble s with phase := .hdr, idx := 0 }) rfl rfl
    (by simpa using hhost)
  convert (runs_pre hphase hidx hhost).trans hhdr using 1
  simp only [emitAll_eq, writeAll_append, List.length_append, Nat.add_assoc]

/-! ### The payload and the trailer -/

/-- The copy phase emits the data of the request (R145, R146). -/
theorem runs_copy {s : State} {bitmap : List Byte} (hphase : s.phase = .copy) (hidx : s.idx = 0)
    (hhost : hostHolds s.host = true) (hread : s.inMem.readBytes 0 s.len = some bitmap) :
    Runs (s.len + 1) s { emitAll bitmap s with idx := s.len, phase := .trl } := by
  obtain ⟨hlen, hbyte⟩ := Memory.readBytes_eq_some.1 hread
  have hemitted (i : Nat) : (emitted bitmap s i).phase = .copy ∧ (emitted bitmap s i).len = s.len ∧
      (emitted bitmap s i).inMem = s.inMem := by simpa [emitted] using hphase
  have hrun : s.phase ≠ .done := by simp [hphase]
  have hcopy : Runs s.len s (emitted bitmap s s.len) := by
    refine runs_emitted hlen.ge hidx hhost hrun fun i v hi hv => ?_
    obtain ⟨hp, hl, hm⟩ := hemitted i
    refine .copy v hp (by rwa [hl]) ?_
    rw [hm, ← hv, ← hbyte i hi, Nat.zero_add]
    rfl
  obtain ⟨hp, hl, -⟩ := hemitted s.len
  have hend := BlockStep.copyEnd hp hl.symm
  rw [emitted, List.take_of_length_le hlen.le] at hend hcopy
  exact hcopy.trans (.block hend (by simpa using hhost) (by simpa using hrun))

/-- The trailer (R147). -/
theorem runs_trl {s : State} (hphase : s.phase = .trl) (hhost : hostHolds s.host = true) :
    Runs 1 s (complete s.h (emitAll lfBytes s)) :=
  .block (.trl hphase) hhost (by simp [hphase])

/-! ### The pixels -/

/-- A packer step reads neither `k` nor `p`. -/
theorem packStep_k_p (k k' : Bool) (p : Nat) (s : State) :
    packStep k { s with k := k', p := p } = { packStep k s with k := k', p := p } := by
  by_cases hb : s.b = 7
  · rw [packStep_emit hb, packStep_emit (s := { s with k := k', p := p }) hb]
    rfl
  · rw [packStep_merge hb, packStep_merge (s := { s with k := k', p := p }) hb]

/-- The packer changes none of the registers that the sequencer reads. -/
theorem foldl_packStep_frame (ks : List Bool) (s : State) :
    let t := ks.foldl (fun s k => packStep k s) s
    t = { s with acc := t.acc, b := t.b, outMem := t.outMem, outLen := t.outLen } := by
  induction ks using List.reverseRecOn with
  | nil => rfl
  | append_singleton ks k ih =>
    simp only [List.foldl_append, List.foldl_cons, List.foldl_nil]
    rw [packStep_frame, ih]

/-- The state after the first `i` contributions: all of them packed, the last in `k`, `p` counting. -/
def packed (ks : List Bool) (s : State) (i : Nat) : State :=
  { (ks.take i).foldl (fun s k => packStep k s) s with k := (ks.take i).getLastD s.k, p := i }

theorem packed_frame (ks : List Bool) (s : State) (i : Nat) :
    (packed ks s i).phase = s.phase ∧ (packed ks s i).npix = s.npix ∧
      (packed ks s i).inMem = s.inMem ∧ (packed ks s i).host = s.host ∧ (packed ks s i).p = i := by
  rw [packed, foldl_packStep_frame]
  exact ⟨rfl, rfl, rfl, rfl, rfl⟩

theorem packed_zero {s : State} (h : s.p = 0) (ks : List Bool) : packed ks s 0 = s := by
  cases s
  cases h
  rfl

theorem packed_succ {ks : List Bool} {i : Nat} {k : Bool} (hk : ks[i]? = some k) (s : State) :
    { packStep k { packed ks s i with k := k } with p := i + 1 } = packed ks s (i + 1) := by
  have htake : ks.take (i + 1) = ks.take i ++ [k] := by rw [List.take_add_one, hk]; rfl
  have hpack := packStep_k_p k k i ((ks.take i).foldl (fun s k => packStep k s) s)
  rw [packed, packed, htake, List.foldl_append, List.getLastD_concat, hpack]
  rfl

/-- A pixel is read from the data of the request. -/
theorem readPixel_of_readBytes {m : Memory} {n p : Nat} {pixels : List Byte}
    (hread : m.readBytes 0 n = some pixels) (hp : 4 * p + 3 < n) :
    readPixel m p = some (pixels.getD (4 * p) 0, pixels.getD (4 * p + 1) 0,
      pixels.getD (4 * p + 2) 0, pixels.getD (4 * p + 3) 0) := by
  obtain ⟨hlen, hbyte⟩ := Memory.readBytes_eq_some.1 hread
  have byte {a : Nat} (ha : a < n) : m.read a = some (pixels.getD a 0) := by
    have hat := hbyte a ha
    rw [Nat.zero_add, List.getElem?_eq_getElem (hlen.symm ▸ ha)] at hat
    rw [hat, List.getD_eq_getElem]
  exact readPixel_eq_some.2 ⟨byte (by omega), byte (by omega), byte (by omega), byte hp⟩

/-- The pixel steps emit the bitmap of the request's pixels, whole groups of eight (R142). -/
theorem runs_pixels {s : State} {pixels : List Byte} (hphase : s.phase = .pix) (hacc : s.acc = 0)
    (hb : s.b = 0) (hp : s.p = 0) (hhost : hostHolds s.host = true)
    (hread : s.inMem.readBytes 0 (4 * s.npix) = some pixels) (hgroups : 8 ∣ s.npix) :
    Runs s.npix s { emitAll (bitmapOf pixels) s with
      k := (contributions pixels).getLastD s.k, p := s.npix } := by
  have hlen : pixels.length = 4 * s.npix := Memory.readBytes_length hread
  have hks : (contributions pixels).length = s.npix := by rw [contributions_length]; omega
  have hseq := Runs.sequence (σ := packed (contributions pixels) s) (n := s.npix) (fun i hi => ?_)
    (fun i _ => ?_) (fun i _ => ?_)
  · rw [packed_zero hp, packed, List.take_of_length_le hks.le,
      foldl_packStep_of_eight_dvd hacc hb (hks.symm ▸ hgroups)] at hseq
    exact hseq
  all_goals obtain ⟨hph, hn, hm, hh, hpi⟩ := packed_frame (contributions pixels) s i
  · have hpixel := readPixel_of_readBytes hread (p := i) (by omega)
    rw [← packed_succ (contributions_getElem? pixels i (by omega))]
    have hstep := BlockStep.pixel (s := packed (contributions pixels) s i) _ _ _ _ (hph.trans hphase)
      (by rwa [hpi, hn]) (by rw [hm, hpi]; exact hpixel)
    rwa [hpi] at hstep
  · rwa [hh]
  · simp [hph, hphase]

end Sys2Proof.Machine

/-! PROOFS. The three operations as runs (O38 to O40), and the result and the number of steps of every request
(O41). -/

namespace Sys2Proof.Machine

/-! ### The operations after their acceptance -/

theorem encodeRasterCommand_eq_append (bitmap : List Byte) (width height : Nat) :
    encodeRasterCommand bitmap width height =
      (preamble ++ headerBytes Config.xhComputed width height) ++ (bitmap ++ lfBytes) :=
  encodeRasterCommandWith_eq ..

/-- Copy and trailer. -/
theorem runs_copy_trl {s : State} {bitmap : List Byte} (hphase : s.phase = .copy) (hidx : s.idx = 0)
    (hhost : hostHolds s.host = true) (hread : s.inMem.readBytes 0 s.len = some bitmap) :
    Runs (s.len + 1 + 1) s (complete s.h (emitAll (bitmap ++ lfBytes) { s with idx := s.len })) := by
  have htrl := runs_trl (s := { emitAll bitmap s with idx := s.len, phase := .trl }) rfl
    (by simpa using hhost)
  convert (runs_copy hphase hidx hhost hread).trans htrl using 1
  simp only [emitAll_eq, writeAll_append, List.length_append, Nat.add_assoc, complete]

/-- The phases of an ENCODE emit the whole command (R152). -/
theorem runs_encode_phases {s : State} {bitmap : List Byte} {len : Nat} (hphase : s.phase = .pre)
    (hop : s.op = 1) (hidx : s.idx = 0) (hlen : s.len = len) (hhost : hostHolds s.host = true)
    (hread : s.inMem.readBytes 0 len = some bitmap) :
    Runs (17 + len) s (complete s.h
      (emitAll (encodeRasterCommand bitmap s.width s.h) { s with idx := len })) := by
  subst hlen
  have hhead := runs_head hphase hidx hhost
  rw [if_neg (by simp [hop])] at hhead
  have hcopy := runs_copy_trl (bitmap := bitmap)
    (s := { emitAll (preamble ++ headerBytes Config.xhComputed s.width s.h) s with
      phase := .copy, idx := 0 }) rfl rfl (by simpa using hhost) (by simpa using hread)
  convert hhead.trans hcopy using 1
  · simp only [emitAll_len]
    omega
  · rw [encodeRasterCommand_eq_append]
    generalize preamble ++ headerBytes Config.xhComputed s.width s.h = head
    generalize bitmap ++ lfBytes = tail
    simp only [emitAll_eq, writeAll_append, List.length_append, Nat.add_assoc, complete]

/-- The pixel phase and the end of a RASTERIZE. -/
theorem runs_rasterize_phases {s : State} {pixels : List Byte} (hphase : s.phase = .pix) (hop : s.op = 0)
    (hacc : s.acc = 0) (hb : s.b = 0) (hp : s.p = 0) (hhost : hostHolds s.host = true)
    (hread : s.inMem.readBytes 0 (4 * s.npix) = some pixels) (hgroups : 8 ∣ s.npix) :
    Runs (s.npix + 1) s (complete s.h (emitAll (bitmapOf pixels) { s with
      k := (contributions pixels).getLastD s.k, p := s.npix })) := by
  have hpixels := runs_pixels hphase hacc hb hp hhost hread hgroups
  convert hpixels.trans (.block (.pixComplete (by simpa using hphase) (by simp) (by simpa using hop))
    (by simpa using hhost) (by simp [hphase])) using 1
  simp only [emitAll_eq, complete]

/-- The pixel phase and the trailer of a PRINT. -/
theorem runs_pixels_trl {s : State} {pixels : List Byte} (hphase : s.phase = .pix) (hop : s.op ≠ 0)
    (hacc : s.acc = 0) (hb : s.b = 0) (hp : s.p = 0) (hhost : hostHolds s.host = true)
    (hread : s.inMem.readBytes 0 (4 * s.npix) = some pixels) (hgroups : 8 ∣ s.npix) :
    Runs (s.npix + 1 + 1) s (complete s.h (emitAll (bitmapOf pixels ++ lfBytes) { s with
      k := (contributions pixels).getLastD s.k, p := s.npix })) := by
  have hpixels := runs_pixels hphase hacc hb hp hhost hread hgroups
  have hend := hpixels.trans (.block (.pixEnd (by simpa using hphase) (by simp) (by simpa using hop))
    (by simpa using hhost) (by simp [hphase]))
  convert hend.trans (runs_trl rfl (by simpa using hhost)) using 1
  simp only [emitAll_eq, writeAll_append, List.length_append, Nat.add_assoc, complete]

/-- The phases of a PRINT emit the whole command. -/
theorem runs_print_phases {s : State} {pixels : List Byte} (hphase : s.phase = .pre) (hop : s.op = 2)
    (hidx : s.idx = 0) (hacc : s.acc = 0) (hb : s.b = 0) (hp : s.p = 0)
    (hhost : hostHolds s.host = true)
    (hread : s.inMem.readBytes 0 (4 * s.npix) = some pixels) (hgroups : 8 ∣ s.npix) :
    Runs (17 + s.npix) s (complete s.h
      (emitAll (encodeRasterCommand (bitmapOf pixels) s.width s.h) { s with
        k := (contributions pixels).getLastD s.k, p := s.npix, idx := 0 })) := by
  have hhead := runs_head hphase hidx hhost
  rw [if_pos hop] at hhead
  have hpixels := runs_pixels_trl (pixels := pixels)
    (s := { emitAll (preamble ++ headerBytes Config.xhComputed s.width s.h) s with
      phase := .pix, idx := 0 }) rfl (by simp [hop]) (by simpa using hacc) (by simpa using hb)
      (by simpa using hp) (by simpa using hhost)
      (by simpa using hread) (by simpa using hgroups)
  convert hhead.trans hpixels using 1
  · simp only [emitAll_npix]
    omega
  · rw [encodeRasterCommand_eq_append]
    generalize preamble ++ headerBytes Config.xhComputed s.width s.h = head
    generalize bitmapOf pixels ++ lfBytes = tail
    simp only [emitAll_eq, writeAll_append, List.length_append, Nat.add_assoc, complete]

/-! ### The operations from the presentation of the request -/

section
variable {s : State} {width len height n : Nat} {data : List Byte} {rest : List HostMove}

/-- The acceptance, the run's first step. -/
theorem runs_accept {r : Request} (hidle : s.phase = .idle) (hhost : s.host = .issue r data :: rest) :
    Runs 1 s (offer r data { s with host := rest }) :=
  .single (by simp [hidle]) (step_of_issue hidle hhost)

/-- An ENCODE is done after `18 + len` steps, in the state of the function level (R152). -/
theorem runs_encode (hidle : s.phase = .idle)
    (hhost : s.host = .issue ⟨1, width, len, height⟩ data :: rest)
    (hholds : hostHolds rest = true) (hlen : len ≤ data.length) :
    Runs (18 + len) s (complete height (emitAll (encodeRasterCommand (data.take len) width height)
      (copyDone len height (latch ⟨1, width, len, height⟩
        { s with host := rest, inMem := Memory.ofBytes data })))) := by
  have haccept := runs_accept hidle hhost
  rw [offer_encode rfl] at haccept
  have hphases := haccept.trans (runs_encode_phases (len := len) rfl rfl rfl rfl hholds
    (Memory.ofBytes_readBytes data len hlen))
  rw [show 18 + len = 1 + (17 + len) by omega]
  convert hphases using 1
  simp only [emitAll_eq, complete, copyDone, latch]

/-- The data of a valid request is its pixels, four bytes each and in whole groups of eight. -/
theorem pixelData_of_valid (hlen : len ≤ data.length) (hvalid : checkRequest width len = .ok n) :
    (Memory.ofBytes data).readBytes 0 (4 * (len / 4)) = some (data.take len) ∧ 8 ∣ len / 4 := by
  obtain ⟨-, hmod, hbytes⟩ := checkRequest_ok.1 hvalid
  obtain ⟨q, rfl⟩ := Nat.dvd_of_mod_eq_zero hmod
  have hgroups : len = 32 * (q * n) := by rw [hbytes]; ring
  have hfour : 4 * (len / 4) = len := by omega
  rw [hfour]
  exact ⟨Memory.ofBytes_readBytes data len hlen, q * n, by omega⟩

/-- A valid RASTERIZE is done after `2 + npix` steps, in the state of the function level (R152). -/
theorem runs_rasterize (hidle : s.phase = .idle)
    (hhost : s.host = .issue ⟨0, width, len, height⟩ data :: rest)
    (hholds : hostHolds rest = true) (hlen : len ≤ data.length) (hvalid : checkRequest width len = .ok n) :
    Runs (2 + len / 4) s (complete n (emitAll (bitmapOf (data.take len))
      (pixelsDone (data.take len) n (latch ⟨0, width, len, height⟩
        { s with host := rest, inMem := Memory.ofBytes data })))) := by
  obtain ⟨hread, hgroups⟩ := pixelData_of_valid hlen hvalid
  have haccept := runs_accept hidle hhost
  rw [offer_pixels (.inl rfl) hvalid] at haccept
  have hphases :=
    haccept.trans (runs_rasterize_phases rfl rfl rfl rfl rfl hholds hread hgroups)
  rw [show 2 + len / 4 = 1 + (len / 4 + 1) by omega]
  convert hphases using 1
  simp only [emitAll_eq, complete, pixelsDone, latch, List.length_take_of_le hlen]

/-- A valid PRINT is done after `18 + npix` steps, in the state of the function level (R152). -/
theorem runs_print (hidle : s.phase = .idle)
    (hhost : s.host = .issue ⟨2, width, len, height⟩ data :: rest)
    (hholds : hostHolds rest = true) (hlen : len ≤ data.length) (hvalid : checkRequest width len = .ok n) :
    Runs (18 + len / 4) s (complete n (emitAll (encodeRasterCommand (bitmapOf (data.take len)) width n)
      (pixelsDone (data.take len) n (latch ⟨2, width, len, height⟩
        { s with host := rest, inMem := Memory.ofBytes data })))) := by
  obtain ⟨hread, hgroups⟩ := pixelData_of_valid hlen hvalid
  have haccept := runs_accept hidle hhost
  rw [offer_pixels (.inr rfl) hvalid] at haccept
  have hphases :=
    haccept.trans (runs_print_phases rfl rfl rfl rfl rfl rfl hholds hread hgroups)
  rw [show 18 + len / 4 = 1 + (17 + len / 4) by omega]
  convert hphases using 1
  simp only [emitAll_eq, complete, pixelsDone, latch, List.length_take_of_le hlen]

end

/-! ### The refinements -/

/-- PRINT in IDLE, on a valid request with its pixels in IN. -/
theorem exec_print_of_ok {width len n : Nat} {pixels : List Byte} {s : State}
    (hidle : s.phase = .idle) (hcheck : checkRequest width len = .ok n)
    (hread : s.inMem.readBytes 0 len = some pixels) (height : Nat) :
    exec (.print width len height) s = .next (complete n
      (emitAll (encodeRasterCommand (bitmapOf pixels) width n)
        (pixelsDone pixels n (latch ⟨2, width, len, height⟩ s)))) := by
  have hlen : pixels.length = len := Memory.readBytes_length hread
  exact pixelOperation_of_ok hidle hcheck hread (print_ok.2 ⟨hlen ▸ hcheck, rfl⟩)

/-- Settles O38: the run of the phases and the function level end in the same state. -/
theorem stepMachineRefinesEncode : Obligations.StepMachineRefinesEncode := by
  intro s width len height data rest hidle hhost hholds hlen
  have hexec := exec_encode_of_read (s := { s with host := rest, inMem := Memory.ofBytes data })
    hidle (Memory.ofBytes_readBytes data len hlen) width height
  rw [hexec, (runs_encode hidle hhost hholds hlen).run_eq]

theorem npix_of_valid {width len n : Nat} (hlen : len = 4 * width * n) : width * n = len / 4 := by
  rw [hlen, Nat.mul_assoc, Nat.mul_div_cancel_left _ (by decide)]

/-- Settles O39: the run of the phases and the function level end in the same state. -/
theorem stepMachineRefinesRasterize : Obligations.StepMachineRefinesRasterize := by
  intro s width len height n data rest hidle hhost hholds hlen hpos hmod hbytes
  have hvalid : checkRequest width len = .ok n := checkRequest_ok.2 ⟨hpos, hmod, hbytes⟩
  have hexec := exec_rasterize_of_ok (s := { s with host := rest, inMem := Memory.ofBytes data })
    hidle hvalid (Memory.ofBytes_readBytes data len hlen) height
  rw [hexec, npix_of_valid hbytes, (runs_rasterize hidle hhost hholds hlen hvalid).run_eq]

/-- Settles O40: the run of the phases and the function level end in the same state. -/
theorem stepMachineRefinesPrint : Obligations.StepMachineRefinesPrint := by
  intro s width len height n data rest hidle hhost hholds hlen hpos hmod hbytes
  have hvalid : checkRequest width len = .ok n := checkRequest_ok.2 ⟨hpos, hmod, hbytes⟩
  have hexec := exec_print_of_ok (s := { s with host := rest, inMem := Memory.ofBytes data })
    hidle hvalid (Memory.ofBytes_readBytes data len hlen) height
  rw [hexec, npix_of_valid hbytes, (runs_print hidle hhost hholds hlen hvalid).run_eq]

/-! ### Every request -/

theorem print_of_check_error {pixels : List Byte} {width : Nat} {e : Failure}
    (h : checkRequest width pixels.length = .error e) : print pixels width = .error e := by
  simp only [print, rasterize_of_check_error h]

/-- What the function level says of a RASTERIZE or PRINT that fails the check. -/
theorem functionLevel_of_check_error {r : Request} {data : List Byte} {e : Failure}
    (hop : r.op = 0 ∨ r.op = 2) (hdata : data.length = r.len)
    (hcheck : checkRequest r.width r.len = .error e) : functionLevel r data = .error e := by
  rw [← hdata] at hcheck
  rcases hop with hop | hop
  · simpa [functionLevel, hop] using rasterize_of_check_error hcheck
  · simpa [functionLevel, hop] using print_of_check_error hcheck

/-- Every request but the reserved one has a run of the length R152 gives it, whose last state is observed as
the function level's result. -/
theorem exists_runs_of_request {s : State} {r : Request} {data : List Byte} {rest : List HostMove}
    (hidle : s.phase = .idle) (hhost : s.host = .issue r data :: rest) (hholds : hostHolds rest = true)
    (hop : r.op ≠ 3) (hlen : r.len ≤ data.length) :
    ∃ t, Runs (blockSteps r) s t ∧
      observe t = some (resultOf (functionLevel r (data.take r.len))) := by
  have htake : (data.take r.len).length = r.len := List.length_take_of_le hlen
  have failing {e : Failure} (hpixels : r.op = 0 ∨ r.op = 2)
      (hcheck : checkRequest r.width r.len = .error e) : ∃ t, Runs (blockSteps r) s t ∧
        observe t = some (resultOf (functionLevel r (data.take r.len))) := by
    have hsteps : blockSteps r = 1 := by rcases hpixels with h | h <;> simp [blockSteps, h, hcheck]
    rw [hsteps, functionLevel_of_check_error hpixels htake hcheck]
    exact ⟨_, offer_failing hpixels hcheck data _ ▸ runs_accept hidle hhost, observe_raise ..⟩
  obtain ⟨op, width, len, height⟩ := r
  rcases op_cases op with rfl | rfl | rfl | rfl
  · cases hcheck : checkRequest width len with
    | error e => exact failing (.inl rfl) hcheck
    | ok n =>
      have hvalue : functionLevel ⟨0, width, len, height⟩ (data.take len) =
        .ok (bitmapOf (data.take len), n) := rasterize_ok.2 ⟨htake.symm ▸ hcheck, rfl⟩
      have hsteps : blockSteps ⟨0, width, len, height⟩ = 2 + len / 4 := by simp [blockSteps, hcheck]
      rw [hvalue, hsteps]
      exact ⟨_, runs_rasterize hidle hhost hholds hlen hcheck, observe_complete_emitAll rfl ..⟩
  · exact ⟨_, runs_encode hidle hhost hholds hlen, observe_complete_emitAll rfl ..⟩
  · cases hcheck : checkRequest width len with
    | error e => exact failing (.inr rfl) hcheck
    | ok n =>
      have hvalue : functionLevel ⟨2, width, len, height⟩ (data.take len) =
        .ok (encodeRasterCommand (bitmapOf (data.take len)) width n, n) :=
          print_ok.2 ⟨htake.symm ▸ hcheck, rfl⟩
      have hsteps : blockSteps ⟨2, width, len, height⟩ = 18 + len / 4 := by simp [blockSteps, hcheck]
      rw [hvalue, hsteps]
      exact ⟨_, runs_print hidle hhost hholds hlen hcheck, observe_complete_emitAll rfl ..⟩
  · exact absurd rfl hop

/-- Settles O41. -/
theorem everyRequestEndsAsTheFunctionSays : Obligations.EveryRequestEndsAsTheFunctionSays := by
  intro s r data rest _ hidle hhost hholds hop hlen
  obtain ⟨t, hruns, hresult⟩ := exists_runs_of_request hidle hhost hholds hop hlen
  exact ⟨⟨t, hruns.run_eq, hresult⟩, fun m hm => hruns.observe_eq_none hm⟩

end Sys2Proof.Machine

/-! PROOFS. The rules every block step and every instruction keeps: the frames, IN (O47), OUT (O48), and the
ways back to IDLE (O44). -/

namespace Sys2Proof.Machine

/-! ### The frame of a block step -/

/-- A block step changes neither the descriptor, nor `h`, `npix` and IN, nor the host's moves. -/
theorem BlockStep.frame {s t : State} (h : BlockStep s t) : t = { s with
    phase := t.phase, acc := t.acc, b := t.b, p := t.p, idx := t.idx, k := t.k, status := t.status,
    heightOut := t.heightOut, outLen := t.outLen, outMem := t.outMem } := by
  cases h with
  | pixel => rw [packStep_frame]
  | hold | pre | preEnd | hdr | hdrEnd | pixComplete | pixEnd | copy | copyEnd | trl => rfl

section
variable {s t : State} (h : BlockStep s t)
include h

theorem BlockStep.op_eq : t.op = s.op := by rw [h.frame]
theorem BlockStep.width_eq : t.width = s.width := by rw [h.frame]
theorem BlockStep.len_eq : t.len = s.len := by rw [h.frame]
theorem BlockStep.height_eq : t.height = s.height := by rw [h.frame]
theorem BlockStep.h_eq : t.h = s.h := by rw [h.frame]
theorem BlockStep.npix_eq : t.npix = s.npix := by rw [h.frame]
theorem BlockStep.inMem_eq : t.inMem = s.inMem := by rw [h.frame]
theorem BlockStep.host_eq : t.host = s.host := by rw [h.frame]

/-- In IDLE and in DONE a block step changes nothing. -/
theorem BlockStep.eq_of_hold (hhold : s.phase = .idle ∨ s.phase = .done) : t = s := by
  have hstep := blockStep_of h
  rw [blockStep_hold hhold] at hstep
  injection hstep with heq
  exact heq.symm

/-- No block step returns to IDLE (R181). -/
theorem BlockStep.phase_ne_idle (hbusy : s.phase ≠ .idle) : t.phase ≠ .idle := by
  cases h with
  | hold | pre | hdr | copy => exact hbusy
  | preEnd | pixComplete | pixEnd | copyEnd | trl => exact Phase.noConfusion
  | hdrEnd => dsimp only; split <;> exact Phase.noConfusion
  | pixel => rw [packStep_frame]; exact hbusy

theorem BlockStep.busy_of_busy (hbusy : t.phase ≠ .idle) : s.phase ≠ .idle :=
  fun hidle => hbusy (h.eq_of_hold (.inl hidle) ▸ hidle)

theorem BlockStep.running_of_running (hrun : t.phase ≠ .done) : s.phase ≠ .done :=
  fun hdone => hrun (h.eq_of_hold (.inr hdone) ▸ hdone)

end

/-- Settles O44: of the steps outside IDLE only the reset and the acknowledgement lead there. -/
theorem onlyTheHostReturnsTheBlockToIdle : Obligations.OnlyTheHostReturnsTheBlockToIdle := by
  intro s t hstep hbusy hidle
  cases step_inv hstep with
  | operate _ _ _ _ _ h => exact absurd h hbusy
  | reset rest hhost => exact ⟨rest, .inl hhost⟩
  | acknowledge rest hdone hhost => exact ⟨rest, .inr ⟨hdone, hhost⟩⟩
  | issue _ _ _ h => exact absurd h hbusy
  | block rest _ _ hblock => exact absurd hidle (hblock.phase_ne_idle hbusy)

/-- Settles O48: outside IDLE and DONE, without reset, a step is a block step, which emits at most one byte. -/
theorem outGrowsOneByteAtATime : Obligations.OutGrowsOneByteAtATime := by
  intro s t hbusy hrun hreset hstep
  cases step_inv hstep with
  | operate _ _ _ _ _ h => exact absurd h hbusy
  | reset rest hhost => exact absurd hhost (hreset rest)
  | acknowledge _ hdone => exact absurd hdone hrun
  | issue _ _ _ h => exact absurd h hbusy
  | block rest _ _ hblock =>
    obtain hsame | ⟨⟨v, hmem⟩, hlen⟩ := hblock.out_cases
    · exact .inl hsame
    · refine .inr ⟨hlen, ?_, fun a ha => ?_⟩
      · rw [hmem, Memory.read_write_same]
        rfl
      · rw [hmem, Memory.read_write_other _ _ ha]

/-! ### An instruction run whole in IDLE -/

/-- The bytes of a RASTERIZE (`op = 0`) or PRINT (`op = 2`) of `pixels` with height `n`. -/
def IsPixelResult (r : Request) (pixels : List Byte) (n : Nat) (bytes : List Byte) : Prop :=
  r.op = 0 ∧ bytes = bitmapOf pixels ∨
    r.op = 2 ∧ bytes = encodeRasterCommand (bitmapOf pixels) r.width n

/-- The next states of an instruction run whole in IDLE: the row of a sub-block emits bytes or sets `k`; a
RASTERIZE or PRINT fails or completes; an ENCODE completes. -/
inductive IdleExec (s : State) : State → Prop
  | row (k : Bool) (vs : List Byte) : IdleExec s (emitAll vs { s with k := k })
  | failed (r : Request) (e : Failure) (hop : r.op = 0 ∨ r.op = 2) : IdleExec s (raise e (latch r s))
  | encoded (r : Request) (bitmap : List Byte) (hop : r.op = 1) (hlen : bitmap.length = r.len) :
      IdleExec s (complete r.height (emitAll (encodeRasterCommand bitmap r.width r.height)
        (copyDone r.len r.height (latch r s))))
  | pixels (r : Request) (n : Nat) (pixels bytes : List Byte)
      (hcheck : checkRequest r.width r.len = .ok n) (hlen : pixels.length = r.len)
      (hbytes : IsPixelResult r pixels n bytes) :
      IdleExec s (complete n (emitAll bytes (pixelsDone pixels n (latch r s))))

theorem pixelOperation_idleExec {f : List Byte → Nat → Except Failure (List Byte × Nat)} {r : Request}
    {s t : State} (hop : r.op = 0 ∨ r.op = 2)
    (hf : ∀ pixels bytes n, f pixels r.width = .ok (bytes, n) →
      checkRequest r.width pixels.length = .ok n ∧ IsPixelResult r pixels n bytes)
    (hidle : s.phase = .idle) (h : pixelOperation f r s = .next t) : IdleExec s t := by
  obtain ⟨e, -, rfl⟩ | ⟨_, pixels, -, hread, ⟨e, -, rfl⟩ | ⟨n, bytes, hok, rfl⟩⟩ :=
    pixelOperation_inv hidle h
  · exact .failed r e hop
  · exact .failed r e hop
  · have hlen : pixels.length = r.len := Memory.readBytes_length hread
    obtain ⟨hcheck, hbytes⟩ := hf pixels bytes n hok
    exact .pixels r n pixels bytes (hlen ▸ hcheck) hlen hbytes

/-- Every next state of an instruction in IDLE is one of those. -/
theorem exec_idle_inv {i : Instr} {s t : State} (hidle : s.phase = .idle) (h : exec i s = .next t) :
    IdleExec s t := by
  cases i with
  | rasterize width len height =>
    refine pixelOperation_idleExec (r := ⟨0, width, len, height⟩) (.inl rfl) (fun _ _ _ hok => ?_) hidle h
    obtain ⟨hcheck, hbytes⟩ := rasterize_ok.1 hok
    exact ⟨hcheck, .inl ⟨rfl, hbytes⟩⟩
  | print width len height =>
    refine pixelOperation_idleExec (r := ⟨2, width, len, height⟩) (.inr rfl) (fun _ _ _ hok => ?_) hidle h
    obtain ⟨hcheck, hbytes⟩ := print_ok.1 hok
    exact ⟨hcheck, .inr ⟨rfl, hbytes⟩⟩
  | encode width len height =>
    obtain ⟨bitmap, hread, rfl⟩ := execEncode_inv hidle h
    exact .encoded ⟨1, width, len, height⟩ bitmap rfl (Memory.readBytes_length hread)
  | reservedOp3 => cases h; exact .row s.k []
  | thresh red green blue alpha => cases h; exact .row (contribution red green blue alpha) []
  | pack k0 k1 k2 k3 k4 k5 k6 k7 => cases h; exact .row s.k [pack8 k0 k1 k2 k3 k4 k5 k6 k7]
  | init => cases h; exact .row s.k initBytes
  | stdmode => cases h; exact .row s.k stdmodeBytes
  | lf => cases h; exact .row s.k lfBytes
  | raster width height bitmap =>
    rw [exec_raster] at h
    cases h
    exact .row s.k (headerBytes Config.xhComputed width height ++ bitmap)

/-- No instruction writes IN (R41). -/
theorem IdleExec.inMem_eq {s t : State} (h : IdleExec s t) : t.inMem = s.inMem := by
  cases h <;> simp

/-- An accepted request brings its IN (R40, R135). -/
theorem offer_inMem {r : Request} (hop : r.op ≠ 3) (data : List Byte) (s : State) :
    (offer r data s).inMem = Memory.ofBytes data := by
  obtain ⟨h, -⟩ | ⟨-, h⟩ | ⟨-, ⟨e, -, h⟩ | ⟨n, -, h⟩⟩ := offer_cases r data s
  · exact absurd h hop
  all_goals rw [h]; rfl

/-- Settles O47: IN is loaded with an accepted request or an operation handed over whole, and nothing else
writes it. -/
theorem inIsReadOnlyWhileRunning : Obligations.InIsReadOnlyWhileRunning := by
  intro s t hstep
  cases step_inv hstep with
  | operate e data rest i _ hidle hhost _ hexec =>
    have hin := (exec_idle_inv (by simpa using hidle) hexec).inMem_eq
    obtain ⟨r, rfl, hop, hdata⟩ | ⟨-, hdata⟩ := supplyData_cases e data { s with host := rest }
    · rw [hdata] at hin
      exact .inr ⟨hidle, r, data, rest, hop, .inr hhost, hin⟩
    · rw [hdata] at hin
      exact .inl hin
  | reset | acknowledge => exact .inl rfl
  | issue r data rest hidle hhost =>
    by_cases hop : r.op = 3
    · rw [offer_reserved hop]
      exact .inl rfl
    · exact .inr ⟨hidle, r, data, rest, hop, .inl hhost, offer_inMem hop data _⟩
  | block rest _ _ hblock => exact .inl hblock.inMem_eq

end Sys2Proof.Machine

/-! PROOFS. The invariant of the machine: it holds at reset (O50) and every step keeps it (O51). -/

namespace Sys2Proof.Machine

/-! ### The invariant, phase by phase -/

section
variable {s : State}

theorem phaseInv_idle (h : s.phase = .idle) : PhaseInv s := by simp only [PhaseInv, h]

theorem phaseInv_pre (h : s.phase = .pre) : PhaseInv s ↔ Latched s ∧ s.op ≠ 0 ∧ s.p = 0 ∧ s.b = 0 ∧
    s.acc = 0 ∧ s.idx ≤ 6 ∧ s.outLen = s.idx := by simp only [PhaseInv, h]

theorem phaseInv_hdr (h : s.phase = .hdr) : PhaseInv s ↔ Latched s ∧ s.op ≠ 0 ∧ s.p = 0 ∧ s.b = 0 ∧
    s.acc = 0 ∧ s.idx ≤ 7 ∧ s.outLen = 7 + s.idx := by simp only [PhaseInv, h]

theorem phaseInv_pix (h : s.phase = .pix) : PhaseInv s ↔ Latched s ∧ s.op ≠ 1 ∧ s.p ≤ s.npix ∧
    s.b.toNat = s.p % 8 ∧ s.acc.toNat % 2 ^ (8 - s.p % 8) = 0 ∧
    s.outLen = (if s.op = 0 then 0 else 15) + s.p / 8 := by simp only [PhaseInv, h]

theorem phaseInv_copy (h : s.phase = .copy) : PhaseInv s ↔ Latched s ∧ s.op = 1 ∧ s.idx ≤ s.len ∧
    s.outLen = 15 + s.idx := by simp only [PhaseInv, h]

theorem phaseInv_trl (h : s.phase = .trl) : PhaseInv s ↔ Latched s ∧ s.op ≠ 0 ∧
    s.outLen = 15 + payloadBytes s := by simp only [PhaseInv, h]

/-- A completed operation satisfies the invariant's part for DONE. -/
theorem phaseInv_of_completed (h : s.phase = .done) (hstatus : s.status = 0) (hlatched : Latched s)
    (hheight : s.heightOut = s.h) (hout : s.outLen = resultBytes s) : PhaseInv s := by
  simp only [PhaseInv, h]
  exact .inl ⟨hstatus, hlatched, hheight, hout⟩

/-- A failed operation satisfies the invariant's part for DONE. -/
theorem phaseInv_raise (e : Failure) (hop : s.op = 0 ∨ s.op = 2) : PhaseInv (raise e s) := by
  simp only [PhaseInv, raise_phase]
  exact .inr ⟨by cases e <;> simp [Failure.code], hop, rfl, rfl⟩

theorem Latched.op_cases (h : Latched s) : s.op = 0 ∨ s.op = 1 ∨ s.op = 2 := by
  obtain ⟨hop, -⟩ | ⟨hop, -⟩ := h
  · exact .inr (.inl hop)
  · exact hop.imp_right .inr

theorem payloadBytes_of_encode (h : s.op = 1) : payloadBytes s = s.len := if_pos h

theorem payloadBytes_of_pixels (h : s.op ≠ 1) : payloadBytes s = s.npix / 8 := if_neg h

theorem resultBytes_of_rasterize (h : s.op = 0) : resultBytes s = s.npix / 8 := if_pos h

end

/-! ### The packer -/

/-- Merging contribution `b` leaves the bits from `6 - b` down 0 if those from `7 - b` down were (R103). -/
theorem mergeAt_mod (k : Bool) {b : Nat} {acc : Byte} (hb : b < 8)
    (h : acc.toNat % 2 ^ (8 - b) = 0) : (mergeAt k b acc).toNat % 2 ^ (7 - b) = 0 := by
  have hacc : 2 ^ (7 - b) ∣ acc.toNat :=
    (Nat.pow_dvd_pow 2 (by omega)).trans (Nat.dvd_of_mod_eq_zero h)
  have h256 : 2 ^ (7 - b) ∣ 2 ^ 8 := Nat.pow_dvd_pow 2 (by omega)
  refine Nat.mod_eq_zero_of_dvd ?_
  cases k with
  | false => exact hacc
  | true =>
    change 2 ^ (7 - b) ∣ (acc + BitVec.ofNat 8 (2 ^ (7 - b))).toNat
    rw [BitVec.toNat_add, BitVec.toNat_ofNat, Nat.dvd_mod_iff h256]
    exact Nat.dvd_add hacc ((Nat.dvd_mod_iff h256).2 dvd_rfl)

theorem packStep_phase (k : Bool) (s : State) : (packStep k s).phase = s.phase := by rw [packStep_frame]

/-- A streaming step keeps R103: `b` counts the contributions of the open group and the bits of `acc` from
`7 - b` down are 0. -/
theorem packStep_openGroup (k : Bool) {s : State} {p : Nat} (hb : s.b.toNat = p % 8)
    (hacc : s.acc.toNat % 2 ^ (8 - p % 8) = 0) :
    (packStep k s).b.toNat = (p + 1) % 8 ∧
      (packStep k s).acc.toNat % 2 ^ (8 - (p + 1) % 8) = 0 := by
  by_cases hfull : s.b = 7
  · have hseven : p % 8 = 7 := by rw [← hb, hfull]; rfl
    rw [packStep_emit hfull]
    exact ⟨by change 0 = _; omega, Nat.zero_mod _⟩
  · have hopen : p % 8 < 7 := by bv_omega
    have hnext : (p + 1) % 8 = p % 8 + 1 := by omega
    rw [packStep_merge hfull, hnext, Nat.sub_add_eq, Nat.sub_right_comm]
    refine ⟨?_, ?_⟩
    · change (s.b + 1).toNat = _
      bv_omega
    · change (mergeAt k s.b.toNat s.acc).toNat % _ = 0
      rw [hb]
      exact mergeAt_mod k (by omega) hacc

/-! ### A block step -/

section
variable {s t : State} (h : BlockStep s t)
include h

theorem BlockStep.latched (hs : Latched s) : Latched t := by
  rwa [Latched, h.op_eq, h.width_eq, h.len_eq, h.height_eq, h.h_eq, h.npix_eq]

/-- Each phase hands the next what it needs (R137 to R147). -/
theorem BlockStep.phaseInv (hinv : PhaseInv s) : PhaseInv t := by
  have hstep := h
  cases h with
  | hold => exact hinv
  | pre v hp hv hi =>
    obtain ⟨hl, hop, hpz, hb, hacc, hidx, hout⟩ := (phaseInv_pre hp).1 hinv
    have hnext : s.idx + 1 ≤ 6 := by omega
    exact (phaseInv_pre (by exact hp)).2 ⟨hl, hop, hpz, hb, hacc, hnext, congrArg (· + 1) hout⟩
  | preEnd v hp hv hi =>
    obtain ⟨hl, hop, hpz, hb, hacc, -, hout⟩ := (phaseInv_pre hp).1 hinv
    exact (phaseInv_hdr rfl).2 ⟨hl, hop, hpz, hb, hacc, Nat.zero_le _,
      congrArg (· + 1) (hout.trans hi)⟩
  | hdr v hp hv hi =>
    obtain ⟨hl, hop, hpz, hb, hacc, hidx, hout⟩ := (phaseInv_hdr hp).1 hinv
    have hnext : s.idx + 1 ≤ 7 := by omega
    exact (phaseInv_hdr (by exact hp)).2 ⟨hl, hop, hpz, hb, hacc, hnext, congrArg (· + 1) hout⟩
  | hdrEnd v hp hv hi =>
    obtain ⟨hl, hop, hpz, hb, hacc, -, hout⟩ := (phaseInv_hdr hp).1 hinv
    have hfifteen : s.outLen + 1 = 15 := by omega
    by_cases hprint : s.op = 2
    · have hop1 : s.op ≠ 1 := by simp [hprint]
      refine (phaseInv_pix (if_pos hprint)).2 ⟨hl, hop1, ?_⟩
      simp [hpz, hb, hacc, hprint, hfifteen]
    · have hop1 : s.op = 1 := (hl.op_cases.resolve_left hop).resolve_right hprint
      exact (phaseInv_copy (if_neg hprint)).2 ⟨hl, hop1, Nat.zero_le _, hfifteen⟩
  | pixel red green blue alpha hp hlt hr =>
    obtain ⟨hl, hop, -, hb, hacc, hout⟩ := (phaseInv_pix hp).1 hinv
    obtain ⟨hb', hacc'⟩ := packStep_openGroup (contribution red green blue alpha)
      (s := { s with k := contribution red green blue alpha }) hb hacc
    refine (phaseInv_pix ?_).2 ⟨hstep.latched hl, hstep.op_eq.trans_ne hop,
      hstep.npix_eq.symm ▸ hlt, hb', hacc', ?_⟩
    · exact (packStep_phase ..).trans hp
    · rw [hstep.op_eq]
      simp only [packStep_outLen, hb, hout]
      omega
  | pixComplete hp hlast hop =>
    obtain ⟨hl, -, -, -, -, hout⟩ := (phaseInv_pix hp).1 hinv
    rw [if_pos hop, Nat.zero_add, hlast] at hout
    exact phaseInv_of_completed rfl rfl hl rfl (hout.trans (resultBytes_of_rasterize hop).symm)
  | pixEnd hp hlast hop =>
    obtain ⟨hl, hop1, -, -, -, hout⟩ := (phaseInv_pix hp).1 hinv
    rw [if_neg hop, hlast, ← payloadBytes_of_pixels hop1] at hout
    exact (phaseInv_trl rfl).2 ⟨hl, hop, hout⟩
  | copy v hp hi hv =>
    obtain ⟨hl, hop, -, hout⟩ := (phaseInv_copy hp).1 hinv
    exact (phaseInv_copy (by exact hp)).2 ⟨hl, hop, hi, congrArg (· + 1) hout⟩
  | copyEnd hp hi =>
    obtain ⟨hl, hop, -, hout⟩ := (phaseInv_copy hp).1 hinv
    rw [hi, ← payloadBytes_of_encode hop] at hout
    exact (phaseInv_trl rfl).2 ⟨hl, by simp [hop], hout⟩
  | trl hp =>
    obtain ⟨hl, hop, hout⟩ := (phaseInv_trl hp).1 hinv
    have hresult : s.outLen + 1 = resultBytes s := by rw [resultBytes_of_op_ne_zero hop]; omega
    exact phaseInv_of_completed rfl rfl hl rfl hresult

theorem BlockStep.outMem_wf (hwf : s.outMem.wf) : t.outMem.wf := by
  obtain ⟨hmem, -⟩ | ⟨⟨v, hmem⟩, -⟩ := h.out_cases
  · rwa [hmem]
  · rw [hmem]
    exact Memory.write_wf hwf _ v

/-- A byte emitted at `out_len` is written before `out_len` passes it. -/
theorem BlockStep.written (hwritten : Written s) : Written t := by
  intro hbusy a ha
  have hold := hwritten (h.busy_of_busy hbusy) a
  obtain ⟨hmem, hlen⟩ | ⟨⟨v, hmem⟩, hlen⟩ := h.out_cases
  · rw [hmem]
    exact hold (hlen ▸ ha)
  · rw [hmem, Memory.read_write]
    split
    next => rfl
    next hne => exact hold (by omega)

theorem BlockStep.inv (hinv : Inv s) : Inv t := by
  obtain ⟨hin, hout, hphase, hwritten⟩ := hinv
  exact ⟨h.inMem_eq ▸ hin, h.outMem_wf hout, h.phaseInv hphase, h.written hwritten⟩

end

/-! ### The acceptance of a request -/

theorem latched_encode {s : State} (hop : s.op = 1) (hh : s.h = s.height) (hnpix : s.npix = 0) :
    Latched s := .inl ⟨hop, hh, hnpix⟩

/-- What the acceptance of a valid pixel request latches (R136). -/
theorem latched_pixels {s : State} (hop : s.op = 0 ∨ s.op = 2)
    (hcheck : checkRequest s.width s.len = .ok s.h) (hnpix : s.npix = s.len / 4) : Latched s := by
  obtain ⟨hpos, hmod, hlen⟩ := checkRequest_ok.1 hcheck
  exact .inr ⟨hop, hpos, hmod, hlen, by rw [hnpix, npix_of_valid hlen]⟩

theorem offer_phaseInv (r : Request) (data : List Byte) {s : State} (hidle : s.phase = .idle) :
    PhaseInv (offer r data s) := by
  obtain ⟨-, h⟩ | ⟨hop, h⟩ | ⟨hop, ⟨e, -, h⟩ | ⟨n, hcheck, h⟩⟩ := offer_cases r data s
  · rw [h]
    exact phaseInv_idle hidle
  · rw [h]
    exact (phaseInv_pre rfl).2 ⟨latched_encode hop rfl rfl, by simp [hop], rfl, rfl, rfl,
      Nat.zero_le _, rfl⟩
  · rw [h]
    exact phaseInv_raise e hop
  · rw [h]
    have hlatched := latched_pixels (s := { latch r { s with inMem := Memory.ofBytes data } with
      h := n, npix := r.len / 4, phase := if r.op = 0 then .pix else .pre }) hop hcheck rfl
    rcases hop with hop | hop
    · exact (phaseInv_pix (if_pos hop)).2 ⟨hlatched, by simp [hop], Nat.zero_le _, rfl, rfl,
        by simp [hop]⟩
    · exact (phaseInv_pre (if_neg (by simp [hop]))).2 ⟨hlatched, by simp [hop], rfl, rfl, rfl,
        Nat.zero_le _, rfl⟩

/-- The acceptance clears `out_len`, unless nothing is accepted. -/
theorem offer_written (r : Request) (data : List Byte) {s : State} (hidle : s.phase = .idle) :
    Written (offer r data s) := by
  intro hbusy a ha
  obtain ⟨-, h⟩ | ⟨-, h⟩ | ⟨-, ⟨e, -, h⟩ | ⟨n, -, h⟩⟩ := offer_cases r data s
  · rw [h] at hbusy
    exact absurd hidle hbusy
  all_goals
    rw [h] at ha
    exact absurd ha (Nat.not_lt_zero a)

theorem offer_outMem (r : Request) (data : List Byte) (s : State) :
    (offer r data s).outMem = s.outMem := by
  obtain ⟨-, h⟩ | ⟨-, h⟩ | ⟨-, ⟨e, -, h⟩ | ⟨n, -, h⟩⟩ := offer_cases r data s <;> rw [h] <;> rfl

theorem offer_inMem_wf (r : Request) (data : List Byte) {s : State} (hwf : s.inMem.wf) :
    (offer r data s).inMem.wf := by
  by_cases hop : r.op = 3
  · rwa [offer_reserved hop]
  · rw [offer_inMem hop]
    exact Memory.ofBytes_wf data

theorem offer_inv (r : Request) (data : List Byte) {s : State} (hidle : s.phase = .idle) (hinv : Inv s) :
    Inv (offer r data s) := by
  obtain ⟨hin, hout, -, -⟩ := hinv
  exact ⟨offer_inMem_wf r data hin, (offer_outMem r data s).symm ▸ hout, offer_phaseInv r data hidle,
    offer_written r data hidle⟩

/-! ### An instruction run whole -/

theorem supplyData_inv (e : Encoded) (data : List Byte) {s : State} (hidle : s.phase = .idle)
    (hinv : Inv s) : Inv (supplyData e data s) := by
  obtain ⟨r, -, -, h⟩ | ⟨-, h⟩ := supplyData_cases e data s
  · rw [h]
    obtain ⟨-, hout, -, hwritten⟩ := hinv
    exact ⟨Memory.ofBytes_wf data, hout, phaseInv_idle hidle, hwritten⟩
  · rwa [h]

theorem emitAll_outMem_wf {s : State} (hwf : s.outMem.wf) (vs : List Byte) :
    (emitAll vs s).outMem.wf := by
  rw [emitAll_eq]
  exact writeAll_wf hwf vs _

/-- All of a result emitted from offset 0 on has been written. -/
theorem written_complete_emitAll {s : State} (h : s.outLen = 0) (n : Nat) (vs : List Byte) :
    Written (complete n (emitAll vs s)) := by
  intro _ a ha
  obtain ⟨-, hread⟩ := Memory.readBytes_eq_some.1 (emitAll_readBytes vs s)
  rw [complete_outLen, emitAll_outLen, h, Nat.zero_add] at ha
  have hbyte := hread a ha
  rw [h, Nat.zero_add] at hbyte
  rw [complete_outMem, hbyte, List.getElem?_eq_getElem ha]
  rfl

theorem IdleExec.outMem_wf {s t : State} (h : IdleExec s t) (hwf : s.outMem.wf) : t.outMem.wf := by
  cases h with
  | row | encoded | pixels => exact emitAll_outMem_wf (by exact hwf) _
  | failed => exact hwf

theorem IsPixelResult.length_eq {r : Request} {pixels bytes : List Byte} {n : Nat}
    (h : IsPixelResult r pixels n bytes) :
    bytes.length = if r.op = 0 then pixels.length / 32 else 16 + pixels.length / 32 := by
  obtain ⟨hop, rfl⟩ | ⟨hop, rfl⟩ := h
  · rw [if_pos hop, bitmapOf_length]
  · rw [if_neg (by simp [hop]), encodeRasterCommand_length, bitmapOf_length]

theorem IsPixelResult.op_cases {r : Request} {pixels bytes : List Byte} {n : Nat}
    (h : IsPixelResult r pixels n bytes) : r.op = 0 ∨ r.op = 2 :=
  h.imp And.left And.left

theorem IdleExec.phaseInv {s t : State} (h : IdleExec s t) (hidle : s.phase = .idle) : PhaseInv t := by
  cases h with
  | row => exact phaseInv_idle (by simpa using hidle)
  | failed r e hop => exact phaseInv_raise e hop
  | encoded r bitmap hop hlen =>
    refine phaseInv_of_completed rfl rfl (latched_encode (by simpa using hop) (by simp) (by simp))
      (by simp) ?_
    rw [resultBytes_of_encode (by simpa using hop), complete_outLen, emitAll_outLen,
      encodeRasterCommand_length, hlen]
    simp
  | pixels r n pixels bytes hcheck hlen hbytes =>
    have hlatched : Latched (complete n (emitAll bytes (pixelsDone pixels n (latch r s)))) :=
      latched_pixels (by simpa using hbytes.op_cases) (by simpa using hcheck) (by simp [hlen])
    refine phaseInv_of_completed rfl rfl hlatched (by simp) ?_
    rw [hlatched.resultBytes_eq, complete_outLen, emitAll_outLen, hbytes.length_eq, hlen]
    rcases hbytes.op_cases with hop | hop <;> simp [hop]

theorem IdleExec.written {s t : State} (h : IdleExec s t) (hidle : s.phase = .idle) : Written t := by
  cases h with
  | row => exact fun hbusy => absurd (by simpa using hidle) hbusy
  | failed => exact fun _ a ha => absurd ha (Nat.not_lt_zero a)
  | encoded | pixels =>
    refine written_complete_emitAll ?_ _ _
    rfl

theorem IdleExec.inv {s t : State} (h : IdleExec s t) (hidle : s.phase = .idle) (hinv : Inv s) :
    Inv t := by
  obtain ⟨hin, hout, -, -⟩ := hinv
  exact ⟨h.inMem_eq.symm ▸ hin, h.outMem_wf hout, h.phaseInv hidle, h.written hidle⟩

/-! ### Every step -/

theorem toIdle_inv {s : State} (hin : s.inMem.wf) : Inv (toIdle s) :=
  ⟨hin, List.Pairwise.nil, phaseInv_idle rfl, fun hbusy => absurd rfl hbusy⟩

/-- Settles O50: both spaces are empty and the phase is IDLE. -/
theorem invariantHoldsAtReset : Obligations.InvariantHoldsAtReset :=
  ⟨List.Pairwise.nil, List.Pairwise.nil, phaseInv_idle rfl, fun hbusy => absurd rfl hbusy⟩

/-- Settles O51: an instruction run whole, the host's three moves, and the block step each keep it. -/
theorem everyStepKeepsTheInvariant : Obligations.EveryStepKeepsTheInvariant := by
  intro s t hinv hstep
  cases step_inv hstep with
  | operate e data rest i _ hidle _ _ hexec =>
    have hidle' : (supplyData e data { s with host := rest }).phase = .idle := by simpa using hidle
    have hgiven : Inv (supplyData e data { s with host := rest }) := supplyData_inv e data hidle hinv
    exact (exec_idle_inv hidle' hexec).inv hidle' hgiven
  | reset | acknowledge =>
    obtain ⟨hin, -⟩ := hinv
    exact toIdle_inv hin
  | issue r data rest hidle => exact offer_inv r data hidle hinv
  | block rest _ _ hblock => exact hblock.inv hinv

end Sys2Proof.Machine

/-! PROOFS. Under the invariant: the order of the phases (O46), the fields' widths (O53), and the progress of a
run whose host keeps its obligations (O52). -/

namespace Sys2Proof.Machine

/-! ### The order of the phases -/

/-- A block step that changes the phase goes on in the order of its operation (R28). -/
theorem BlockStep.phaseMayFollow {s t : State} (h : BlockStep s t) (hinv : PhaseInv s)
    (hchange : t.phase ≠ s.phase) : phaseMayFollow t.op s.phase t.phase = true := by
  rw [h.op_eq]
  cases h with
  | hold | pre | hdr | copy => exact absurd rfl hchange
  | pixel => exact absurd (packStep_phase ..) hchange
  | preEnd v hp =>
    obtain ⟨hl, hop, -⟩ := (phaseInv_pre hp).1 hinv
    simpa [hp, Machine.phaseMayFollow] using hl.op_cases.resolve_left hop
  | hdrEnd v hp =>
    obtain ⟨hl, hop, -⟩ := (phaseInv_hdr hp).1 hinv
    rcases hl.op_cases.resolve_left hop with hop | hop <;> simp [hp, hop, Machine.phaseMayFollow]
  | pixComplete hp _ hop => simp [hp, hop, Machine.phaseMayFollow]
  | pixEnd hp _ hop0 =>
    obtain ⟨hl, hop1, -⟩ := (phaseInv_pix hp).1 hinv
    simpa [hp, Machine.phaseMayFollow] using (hl.op_cases.resolve_left hop0).resolve_left hop1
  | copyEnd hp =>
    obtain ⟨-, hop, -⟩ := (phaseInv_copy hp).1 hinv
    simp [hp, hop, Machine.phaseMayFollow]
  | trl hp =>
    obtain ⟨hl, hop, -⟩ := (phaseInv_trl hp).1 hinv
    simpa [hp, Machine.phaseMayFollow] using hl.op_cases.resolve_left hop

/-- The acceptance enters the first phase of its operation, or ends in a failure. -/
theorem offer_phaseMayFollow (r : Request) (data : List Byte) {s : State} (hidle : s.phase = .idle)
    (hbusy : (offer r data s).phase ≠ .idle) :
    phaseMayFollow (offer r data s).op s.phase (offer r data s).phase = true := by
  obtain ⟨-, h⟩ | ⟨hop, h⟩ | ⟨hop, ⟨e, -, h⟩ | ⟨n, -, h⟩⟩ := offer_cases r data s
  · rw [h] at hbusy
    exact absurd hidle hbusy
  · simp [h, hidle, hop, phaseMayFollow]
  · simpa [h, hidle, phaseMayFollow] using hop
  · rcases hop with hop | hop <;> simp [h, hidle, hop, phaseMayFollow]

/-- Settles O46: the acceptance begins the order, the block steps follow it, and the host's other moves lead
to IDLE. -/
theorem phasesFollowTheOperation : Obligations.PhasesFollowTheOperation := by
  intro s t hinv hspecified hstep hchange hbusy
  cases step_inv hstep with
  | operate e data rest _ _ _ hhost =>
    have := hspecified (.operate e data) (by simp [hhost])
    cases this
  | reset | acknowledge => exact absurd rfl hbusy
  | issue r data rest hidle =>
    exact offer_phaseMayFollow r data (s := { s with host := rest }) hidle hbusy
  | block rest _ _ hblock =>
    obtain ⟨-, -, hphase, -⟩ := hinv
    exact hblock.phaseMayFollow (by exact hphase) hchange

/-! ### The widths of the fields -/

/-- The registers that a block step may raise, and what bounds them (R24 to R27). -/
theorem BlockStep.bounds {s t : State} (h : BlockStep s t) (hinv : PhaseInv s) (hidle : s.phase ≠ .idle)
    (hdone : s.phase ≠ .done) :
    t.p ≤ max s.p s.npix ∧ t.idx ≤ max (max s.idx s.len) 7 ∧ t.heightOut ≤ max s.heightOut s.h := by
  cases h with
  | hold h => exact absurd h (not_or.2 ⟨hidle, hdone⟩)
  | pre v hp hv hi =>
    obtain ⟨-, -, -, -, -, hidx, -⟩ := (phaseInv_pre hp).1 hinv
    simp; omega
  | hdr v hp hv hi =>
    obtain ⟨-, -, -, -, -, hidx, -⟩ := (phaseInv_hdr hp).1 hinv
    simp; omega
  | preEnd | hdrEnd | pixComplete | pixEnd | copyEnd | trl => simp
  | copy v hp hi => simp; omega
  | pixel r g b a hp hlt =>
    rw [packStep_frame]
    simp; omega

theorem RegistersFit.block {w l : Nat} {s t : State} (h : BlockStep s t)
    (hinv : PhaseInv s) (hfit : RegistersFit w l s) : RegistersFit w l t := by
  by_cases hhold : s.phase = .idle ∨ s.phase = .done
  · rwa [h.eq_of_hold hhold]
  · obtain ⟨hidle, hdone⟩ := not_or.1 hhold
    obtain ⟨hwidth, hlen, hheight, hp, hh, hnpix, hidx, hheightOut, -, hresult⟩ := hfit
    obtain ⟨hp', hidx', hheightOut'⟩ := h.bounds hinv hidle hdone
    have hout := (h.outLen_le hinv hidle hdone).trans (hinv.latched hidle hdone).resultBytes_le
    have hsixteen := hresult hidle
    rw [RegistersFit, h.width_eq, h.len_eq, h.height_eq, h.h_eq, h.npix_eq]
    refine ⟨hwidth, hlen, hheight, ?_, hh, hnpix, ?_, ?_, ?_, fun _ => hsixteen⟩ <;> omega

theorem freeLen_lt {l : Nat} (hl : Config.lenBits ≤ l) (s : State) (r : FreeReg) :
    freeLen s r < 2 ^ l :=
  (Nat.mod_lt _ (Nat.two_pow_pos _)).trans_le (Nat.pow_le_pow_right (by decide) hl)

/-- The free values fit their fields (log entry 3). -/
theorem registersFit_toIdle {w l : Nat} (hw : Config.wBits ≤ w) (hl : Config.lenBits ≤ l) (s : State) :
    RegistersFit w l (toIdle s) := by
  have hwidth : (toIdle s).width < 2 ^ w :=
    (Nat.mod_lt _ (Nat.two_pow_pos _)).trans_le (Nat.pow_le_pow_right (by decide) hw)
  exact ⟨hwidth, freeLen_lt hl s _, freeLen_lt hl s _, freeLen_lt hl s _, freeLen_lt hl s _,
    freeLen_lt hl s _, freeLen_lt hl s _, freeLen_lt hl s _, freeLen_lt hl s _,
    fun hbusy => absurd rfl hbusy⟩

theorem Request.fitsIn_iff {w l : Nat} {r : Request} :
    r.fitsIn w l = true ↔ r.width < 2 ^ w ∧ 16 + r.len < 2 ^ l ∧ r.height < 2 ^ l := by
  simp only [Request.fitsIn, Bool.and_eq_true, decide_eq_true_eq, and_assoc]

theorem registersFit_offer {w l : Nat} {r : Request} {s : State}
    (hr : r.fitsIn w l = true) (hfit : RegistersFit w l s) (data : List Byte) :
    RegistersFit w l (offer r data s) := by
  obtain ⟨hwidth, hlen, hheight⟩ := Request.fitsIn_iff.1 hr
  have hlen' : r.len < 2 ^ l := by omega
  have hzero : 0 < 2 ^ l := Nat.two_pow_pos l
  obtain ⟨-, h⟩ | ⟨-, h⟩ | ⟨-, ⟨e, -, h⟩ | ⟨n, hcheck, h⟩⟩ := offer_cases r data s <;> rw [h]
  · exact hfit
  · obtain ⟨-, -, -, -, -, -, -, hheightOut, -, -⟩ := hfit
    exact ⟨hwidth, hlen', hheight, hzero, hheight, hzero, hzero, hheightOut, hzero, fun _ => hlen⟩
  · obtain ⟨-, -, -, -, hh, hnpix, -, -, -, -⟩ := hfit
    exact ⟨hwidth, hlen', hheight, hzero, hh, hnpix, hzero, hzero, hzero, fun _ => hlen⟩
  · obtain ⟨-, -, -, -, -, -, -, hheightOut, -, -⟩ := hfit
    obtain ⟨hpos, -, hrows⟩ := checkRequest_ok.1 hcheck
    have hn : n ≤ r.len := hrows ▸ Nat.le_mul_of_pos_left n (by omega)
    exact ⟨hwidth, hlen', hheight, hzero, hn.trans_lt hlen', (Nat.div_le_self ..).trans_lt hlen', hzero,
      hheightOut, hzero, fun _ => hlen⟩

/-- Settles O53: the acceptance loads a request that fits, a block step keeps every counter below what was
accepted, and the return to IDLE draws values of the configured widths. -/
theorem registersNeverOutgrowTheirFields : Obligations.RegistersNeverOutgrowTheirFields := by
  intro w l s t hw hl hinv hspecified hrequests hfit hstep
  cases step_inv hstep with
  | operate e data rest _ _ _ hhost => exact absurd (hspecified (.operate e data) (by simp [hhost])) nofun
  | reset | acknowledge => exact registersFit_toIdle hw hl _
  | issue r data rest _ hhost =>
    have hr := hrequests r data (by simp [hhost])
    exact registersFit_offer (s := { s with host := rest }) hr hfit data
  | block rest _ _ hblock =>
    obtain ⟨-, -, hphase, -⟩ := hinv
    exact RegistersFit.block hblock hphase hfit

/-! ### Progress -/

/-- Where the invariant holds and IN holds the request's data, the block step answers a next state (R170). -/
theorem exists_blockStep {s : State} (hinv : PhaseInv s) (hsupplied : Supplied s) :
    ∃ t, BlockStep s t := by
  cases hp : s.phase with
  | idle => exact ⟨s, .hold (.inl hp)⟩
  | done => exact ⟨s, .hold (.inr hp)⟩
  | pre =>
    obtain ⟨-, -, -, -, -, hidx, -⟩ := (phaseInv_pre hp).1 hinv
    have hv : preamble[s.idx]? = some _ := List.getElem?_eq_getElem (by rw [preamble_length]; omega)
    by_cases hlast : s.idx = 6
    · exact ⟨_, .preEnd _ hp hv hlast⟩
    · exact ⟨_, .pre _ hp hv hlast⟩
  | hdr =>
    obtain ⟨-, -, -, -, -, hidx, -⟩ := (phaseInv_hdr hp).1 hinv
    have hv : (headerBytes Config.xhComputed s.width s.h)[s.idx]? = some _ :=
      List.getElem?_eq_getElem (by rw [headerBytes_length]; omega)
    by_cases hlast : s.idx = 7
    · exact ⟨_, .hdrEnd _ hp hv hlast⟩
    · exact ⟨_, .hdr _ hp hv hlast⟩
  | pix =>
    obtain ⟨hl, hop, hle, -⟩ := (phaseInv_pix hp).1 hinv
    have hbytes := hl.four_mul_npix hop
    have byte (a : Nat) (ha : a < s.len) : ∃ v, s.inMem.read a = some v :=
      Option.isSome_iff_exists.1 (hsupplied (by simp [hp]) (by simp [hp]) a ha)
    obtain hlt | hlast := Nat.lt_or_eq_of_le hle
    · obtain ⟨red, hred⟩ := byte (4 * s.p) (by omega)
      obtain ⟨green, hgreen⟩ := byte (4 * s.p + 1) (by omega)
      obtain ⟨blue, hblue⟩ := byte (4 * s.p + 2) (by omega)
      obtain ⟨alpha, halpha⟩ := byte (4 * s.p + 3) (by omega)
      exact ⟨_, .pixel red green blue alpha hp hlt
        (readPixel_eq_some.2 ⟨hred, hgreen, hblue, halpha⟩)⟩
    · by_cases hop0 : s.op = 0
      · exact ⟨_, .pixComplete hp hlast hop0⟩
      · exact ⟨_, .pixEnd hp hlast hop0⟩
  | copy =>
    obtain ⟨-, -, hle, -⟩ := (phaseInv_copy hp).1 hinv
    obtain hlt | hlast := Nat.lt_or_eq_of_le hle
    · obtain ⟨v, hv⟩ := Option.isSome_iff_exists.1 (hsupplied (by simp [hp]) (by simp [hp]) _ hlt)
      exact ⟨_, .copy v hp hlt hv⟩
    · exact ⟨_, .copyEnd hp hlast⟩
  | trl => exact ⟨_, .trl hp⟩

theorem BlockStep.supplied {s t : State} (h : BlockStep s t) (hsupplied : Supplied s) : Supplied t := by
  intro hbusy hrun
  rw [h.len_eq, h.inMem_eq]
  exact hsupplied (h.busy_of_busy hbusy) (h.running_of_running hrun)

theorem supplied_offer {r : Request} {data : List Byte} {s : State} (hop : r.op ≠ 3)
    (hlen : r.len ≤ data.length) : Supplied (offer r data s) := by
  intro _ _ a ha
  have hr : (offer r data s).len = r.len := by
    obtain ⟨h, -⟩ | ⟨-, h⟩ | ⟨-, ⟨e, -, h⟩ | ⟨n, -, h⟩⟩ := offer_cases r data s
    · exact absurd h hop
    all_goals rw [h]; rfl
  rw [offer_inMem hop, Memory.ofBytes_read, List.getElem?_eq_getElem (by omega)]
  rfl

theorem supplied_toIdle (s : State) : Supplied (toIdle s) := fun hbusy => absurd rfl hbusy

theorem offer_host (r : Request) (data : List Byte) (s : State) : (offer r data s).host = s.host := by
  obtain ⟨-, h⟩ | ⟨-, h⟩ | ⟨-, ⟨e, -, h⟩ | ⟨n, -, h⟩⟩ := offer_cases r data s <;> rw [h] <;> rfl

/-- The block's own step, with the host's next move gone or waiting. -/
theorem exists_step_of_block {s : State} {rest : List HostMove} (hinv : Inv s) (hsupplied : Supplied s)
    (hrest : ∀ m ∈ rest, m.admitted = true) (hstep : step s = blockStep { s with host := rest }) :
    ∃ t, step s = .next t ∧ Supplied t ∧ AdmittedHost t := by
  obtain ⟨-, -, hphase, -⟩ := hinv
  obtain ⟨t, ht⟩ := exists_blockStep (s := { s with host := rest }) hphase hsupplied
  refine ⟨t, hstep.trans (blockStep_of ht), ht.supplied hsupplied, ?_⟩
  rw [AdmittedHost, ht.host_eq]
  exact hrest

/-- Settles O52: the block step answers a next state, and an admitted request comes with its data. -/
theorem admittedRunNeverStops : Obligations.AdmittedRunNeverStops := by
  intro s hinv hsupplied hadmitted
  cases hhost : s.host with
  | nil =>
    exact exists_step_of_block (rest := s.host) hinv hsupplied hadmitted (step_of_nil hhost)
  | cons m rest =>
    rw [AdmittedHost, hhost] at hadmitted
    obtain ⟨hm, hrest⟩ := List.forall_mem_cons.1 hadmitted
    cases m with
    | wait => exact exists_step_of_block hinv hsupplied hrest (step_of_wait hhost)
    | issue r data =>
      by_cases hidle : s.phase = .idle
      · simp only [HostMove.admitted, Request.admitted, Bool.and_eq_true, decide_eq_true_eq] at hm
        obtain ⟨⟨-, hop⟩, hlen⟩ := hm
        refine ⟨_, step_of_issue hidle hhost, supplied_offer hop hlen, ?_⟩
        rw [AdmittedHost, offer_host]
        exact hrest
      · exact exists_step_of_block hinv hsupplied hrest (step_of_issue_busy hidle hhost)
    | acknowledge =>
      by_cases hdone : s.phase = .done
      · exact ⟨_, step_of_acknowledge hdone hhost, supplied_toIdle _, hrest⟩
      · exact exists_step_of_block (rest := s.host) hinv hsupplied (hhost ▸ hadmitted)
          (step_of_acknowledge_early hdone hhost)
    | reset => exact ⟨_, step_eq_toIdle_of_reset hhost, supplied_toIdle _, hrest⟩
    | operate => cases hm

end Sys2Proof.Machine

/-! PROOFS. No history is kept (O54): two states that agree on what the sequencer and the host read make steps
that agree again, and two states in IDLE agree if the host's moves do. -/

namespace Sys2Proof.Machine

/-- `s` with all that no running step reads taken from `t`: the latched `height`, `k`, the completion record, OUT,
the host's moves and the counter of free values. -/
def disguise (s t : State) : State := { s with
  height := t.height, k := t.k, status := t.status, heightOut := t.heightOut, outMem := t.outMem,
  host := t.host, draws := t.draws }

/-- The two states agree on the phase and the host's moves, on OUT below `out_len` outside IDLE, on every
register that a step reads in a running phase, and on the completion record in DONE. -/
structure Alike (s t : State) : Prop where
  phase : s.phase = t.phase
  host : s.host = t.host
  running : s.phase ≠ .idle → s.phase ≠ .done → t = disguise s t
  out : s.phase ≠ .idle → s.outLen = t.outLen ∧ ∀ a < s.outLen, s.outMem.read a = t.outMem.read a
  result : s.phase = .done → s.status = t.status ∧ s.heightOut = t.heightOut

theorem disguise_symm {s t : State} (h : t = disguise s t) : s = disguise t s := by
  cases s; cases t
  simp_all [disguise]

theorem Alike.symm {s t : State} (h : Alike s t) : Alike t s where
  phase := h.phase.symm
  host := h.host.symm
  running hidle hdone := disguise_symm (h.running (h.phase ▸ hidle) (h.phase ▸ hdone))
  out hidle := by
    obtain ⟨hlen, hread⟩ := h.out (h.phase ▸ hidle)
    exact ⟨hlen.symm, fun a ha => (hread a (hlen ▸ ha)).symm⟩
  result hdone := by
    obtain ⟨hstatus, hheight⟩ := h.result (h.phase.trans hdone)
    exact ⟨hstatus.symm, hheight.symm⟩

theorem alike_of_idle {s t : State} (hs : s.phase = .idle) (ht : t.phase = .idle)
    (hhost : s.host = t.host) : Alike s t where
  phase := hs.trans ht.symm
  host := hhost
  running hidle := absurd hs hidle
  out hidle := absurd hs hidle
  result hdone := by rw [hs] at hdone; cases hdone

theorem alike_toIdle {s t : State} (hhost : s.host = t.host) : Alike (toIdle s) (toIdle t) :=
  alike_of_idle (toIdle_phase s) (toIdle_phase t) hhost

theorem Alike.setHost {s t : State} (h : Alike s t) (rest : List HostMove) :
    Alike { s with host := rest } { t with host := rest } where
  phase := h.phase
  host := rfl
  running hidle hdone := by rw [h.running hidle hdone]; rfl
  out := h.out
  result := h.result

/-- Two states that agree are observed to be the same. -/
theorem Alike.observe_eq {s t : State} (h : Alike s t) : observe s = observe t := by
  by_cases hdone : s.phase = .done
  · obtain ⟨hlen, hread⟩ := h.out (by simp [hdone])
    obtain ⟨hstatus, hheight⟩ := h.result hdone
    have hbytes : s.outMem.readBytes 0 s.outLen = t.outMem.readBytes 0 t.outLen := by
      rw [← hlen]
      ext1 vs
      rw [Memory.readBytes_eq_some, Memory.readBytes_eq_some]
      refine and_congr_right fun _ => forall₂_congr fun i hi => ?_
      rw [hread _ (by omega)]
    rw [observe, observe, if_pos hdone, if_pos (h.phase ▸ hdone), hbytes, hstatus, hheight, hlen]
  · rw [observe_eq_none_of_ne_done hdone, observe_eq_none_of_ne_done (h.phase ▸ hdone)]

/-! ### A block step -/

theorem read_write_congr {m m' : Memory} {n : Nat} (h : ∀ a < n, m.read a = m'.read a) (v : Byte) :
    ∀ a < n + 1, (m.write n v).read a = (m'.write n v).read a := by
  intro a ha
  rw [Memory.read_write, Memory.read_write]
  split
  next => rfl
  next hne => exact h a (by omega)

section
variable {s t : State} (h : Alike s t) (hidle : s.phase ≠ .idle) (hdone : s.phase ≠ .done)
include h hidle hdone

theorem Alike.emit (v : Byte) : Alike (emit v s) (emit v t) where
  phase := h.phase
  host := h.host
  running _ _ := by rw [h.running hidle hdone]; rfl
  out _ := by
    obtain ⟨hlen, hread⟩ := h.out hidle
    refine ⟨congrArg (· + 1) hlen, ?_⟩
    rw [emit_outMem, emit_outMem, ← hlen]
    exact read_write_congr hread v
  result hd := absurd hd hdone

/-- Both enter the same phase with the same counters. -/
theorem Alike.enter {ph : Phase} (hph : ph ≠ .done) (acc : Byte) (b : BitVec 3) (idx : Nat) :
    Alike { s with phase := ph, acc := acc, b := b, idx := idx }
      { t with phase := ph, acc := acc, b := b, idx := idx } where
  phase := rfl
  host := h.host
  running _ _ := by rw [h.running hidle hdone]; rfl
  out _ := h.out hidle
  result hd := absurd hd hph

theorem Alike.setK (k : Bool) : Alike { s with k := k } { t with k := k } where
  phase := h.phase
  host := h.host
  running _ _ := by rw [h.running hidle hdone]; rfl
  out := h.out
  result := h.result

theorem Alike.setP (p : Nat) : Alike { s with p := p } { t with p := p } where
  phase := h.phase
  host := h.host
  running _ _ := by rw [h.running hidle hdone]; rfl
  out := h.out
  result := h.result

theorem Alike.complete : Alike (complete s.h s) (complete t.h t) where
  phase := rfl
  host := h.host
  running _ hd := absurd rfl hd
  out _ := h.out hidle
  result _ := ⟨rfl, by rw [h.running hidle hdone]; rfl⟩

/-- An agreeing state may be taken to be a disguise of the other, which shares its registers by definition. -/
theorem Alike.eq_disguise : t = disguise s t ∧ Alike s (disguise s t) := by
  have ht := h.running hidle hdone
  exact ⟨ht, by rwa [← ht]⟩

theorem Alike.packStep (k : Bool) : Alike (packStep k s) (packStep k t) := by
  obtain ⟨ht, halike⟩ := h.eq_disguise hidle hdone
  rw [ht]
  by_cases hfull : s.b = 7
  · rw [packStep_emit hfull, packStep_emit (s := disguise s t) hfull]
    exact (halike.emit hidle hdone _).enter hidle hdone hdone ..
  · rw [packStep_merge hfull, packStep_merge (s := disguise s t) hfull]
    exact halike.enter hidle hdone hdone ..

theorem Alike.exists_runningStep {s' : State} (hstep : BlockStep s s') :
    ∃ t', BlockStep t t' ∧ Alike s' t' := by
  obtain ⟨ht, halike⟩ := h.eq_disguise hidle hdone
  rw [ht]
  cases hstep with
  | hold hhold => exact absurd hhold (not_or.2 ⟨hidle, hdone⟩)
  | pre v hp hv hi =>
    exact ⟨_, .pre v hp hv hi, (halike.emit hidle hdone v).enter hidle hdone hdone ..⟩
  | preEnd v hp hv hi =>
    exact ⟨_, .preEnd v hp hv hi, (halike.emit hidle hdone v).enter hidle hdone (by decide) ..⟩
  | hdr v hp hv hi =>
    exact ⟨_, .hdr v hp hv hi, (halike.emit hidle hdone v).enter hidle hdone hdone ..⟩
  | hdrEnd v hp hv hi =>
    exact ⟨_, .hdrEnd v hp hv hi, (halike.emit hidle hdone v).enter hidle hdone (by split <;> nofun) ..⟩
  | pixel red green blue alpha hp hlt hr =>
    refine ⟨_, .pixel red green blue alpha hp hlt hr, ?_⟩
    have hpacked := (halike.setK hidle hdone (contribution red green blue alpha)).packStep hidle hdone
      (contribution red green blue alpha)
    exact hpacked.setP (by rwa [packStep_phase]) (by rwa [packStep_phase]) (s.p + 1)
  | pixComplete hp hlast hop => exact ⟨_, .pixComplete hp hlast hop, halike.complete hidle hdone⟩
  | pixEnd hp hlast hop => exact ⟨_, .pixEnd hp hlast hop, halike.enter hidle hdone (by decide) ..⟩
  | copy v hp hi hv =>
    exact ⟨_, .copy v hp hi hv, (halike.emit hidle hdone v).enter hidle hdone hdone ..⟩
  | copyEnd hp hi => exact ⟨_, .copyEnd hp hi, halike.enter hidle hdone (by decide) ..⟩
  | trl hp => exact ⟨_, .trl hp, (halike.emit hidle hdone _).complete hidle hdone⟩

end

/-- Agreeing states make agreeing block steps. -/
theorem Alike.exists_blockStep {s t s' : State} (h : Alike s t) (hstep : BlockStep s s') :
    ∃ t', BlockStep t t' ∧ Alike s' t' := by
  by_cases hhold : s.phase = .idle ∨ s.phase = .done
  · rw [hstep.eq_of_hold hhold]
    exact ⟨t, .hold (h.phase ▸ hhold), h⟩
  · obtain ⟨hidle, hdone⟩ := not_or.1 hhold
    exact h.exists_runningStep hidle hdone hstep

/-! ### An operation -/

/-- RASTERIZE and PRINT in IDLE, on a request that passes the check and a function level that answers a
failure. -/
theorem pixelOperation_of_error {f : List Byte → Nat → Except Failure (List Byte × Nat)} {r : Request}
    {s : State} {n : Nat} {e : Failure} {pixels : List Byte} (hidle : s.phase = .idle)
    (hcheck : checkRequest r.width r.len = .ok n) (hread : s.inMem.readBytes 0 r.len = some pixels)
    (hf : f pixels r.width = .error e) : pixelOperation f r s = .next (raise e (latch r s)) := by
  simp only [pixelOperation, readData, hidle, ne_eq, not_true_eq_false, if_false, hcheck, hread, hf]

section
variable {s t : State} (hhost : s.host = t.host)
include hhost

theorem alike_raise (e : Failure) (r : Request) : Alike (raise e (latch r s)) (raise e (latch r t)) where
  phase := rfl
  host := hhost
  running _ hdone := absurd rfl hdone
  out _ := ⟨rfl, fun a ha => absurd ha (Nat.not_lt_zero a)⟩
  result _ := ⟨rfl, rfl⟩

/-- Completions with the same result from offset 0 on agree, whatever OUT held. -/
theorem alike_complete (hs : s.outLen = 0) (ht : t.outLen = 0) (n : Nat) (bytes : List Byte) :
    Alike (complete n (emitAll bytes s)) (complete n (emitAll bytes t)) where
  phase := rfl
  host := by simpa using hhost
  running _ hdone := absurd rfl hdone
  out _ := by
    simp only [complete_outLen, complete_outMem, emitAll_outLen, hs, ht, true_and]
    intro a ha
    rw [emitAll_eq, emitAll_eq, writeAll_read, writeAll_read, if_neg (by omega), if_neg (by omega), hs, ht]
  result _ := ⟨rfl, rfl⟩

theorem alike_offer_pixels {r : Request} (hop : r.op = 0 ∨ r.op = 2) (data : List Byte) :
    Alike (offer r data s) (offer r data t) := by
  cases hcheck : checkRequest r.width r.len with
  | error e =>
    rw [offer_failing hop hcheck, offer_failing hop hcheck]
    exact alike_raise (by exact hhost) e r
  | ok n =>
    rw [offer_pixels hop hcheck, offer_pixels hop hcheck]
    have hrun : (if r.op = 0 then Phase.pix else .pre) ≠ .done := by split <;> decide
    exact ⟨rfl, hhost, fun _ _ => rfl, fun _ => ⟨rfl, fun a ha => absurd ha (Nat.not_lt_zero a)⟩,
      fun hdone => absurd hdone hrun⟩

/-- The acceptance latches and clears all that the operation reads (R136). -/
theorem alike_offer (hs : s.phase = .idle) (ht : t.phase = .idle) (r : Request) (data : List Byte) :
    Alike (offer r data s) (offer r data t) := by
  rcases op_cases r.op with hop | hop | hop | hop
  · exact alike_offer_pixels hhost (.inl hop) data
  · rw [offer_encode hop, offer_encode hop]
    exact ⟨rfl, hhost, fun _ _ => rfl, fun _ => ⟨rfl, fun a ha => absurd ha (Nat.not_lt_zero a)⟩, nofun⟩
  · exact alike_offer_pixels hhost (.inr hop) data
  · rw [offer_reserved hop, offer_reserved hop]
    exact alike_of_idle hs ht hhost

theorem alike_pixelOperation {f : List Byte → Nat → Except Failure (List Byte × Nat)} {r : Request}
    {s' : State} (hs : s.phase = .idle) (ht : t.phase = .idle) (hin : s.inMem = t.inMem)
    (h : pixelOperation f r s = .next s') : ∃ t', pixelOperation f r t = .next t' ∧ Alike s' t' := by
  obtain ⟨e, hcheck, rfl⟩ | ⟨n, pixels, hcheck, hread, ⟨e, hf, rfl⟩ | ⟨m, bytes, hf, rfl⟩⟩ :=
    pixelOperation_inv hs h
  · exact ⟨_, pixelOperation_of_check_error ht hcheck, alike_raise hhost e r⟩
  · exact ⟨_, pixelOperation_of_error ht hcheck (hin ▸ hread) hf, alike_raise hhost e r⟩
  · exact ⟨_, pixelOperation_of_ok ht hcheck (hin ▸ hread) hf,
      alike_complete (by exact hhost) rfl rfl ..⟩

theorem alike_execEncode {width len height : Nat} {s' : State} (hs : s.phase = .idle)
    (ht : t.phase = .idle) (hin : s.inMem = t.inMem) (h : execEncode width len height s = .next s') :
    ∃ t', execEncode width len height t = .next t' ∧ Alike s' t' := by
  obtain ⟨bitmap, hread, rfl⟩ := execEncode_inv hs h
  exact ⟨_, exec_encode_of_read ht (hin ▸ hread) width height,
    alike_complete (by exact hhost) rfl rfl ..⟩

omit hhost in
theorem supplyData_host (e : Encoded) (data : List Byte) (s : State) :
    (supplyData e data s).host = s.host := by
  rcases supplyData_cases e data s with ⟨_, _, _, h⟩ | ⟨_, h⟩ <;> rw [h]

/-- An instruction handed over whole brings its data, and a row that is no operation stays in IDLE. -/
theorem alike_exec {i : Instr} {s' : State} (hs : s.phase = .idle) (ht : t.phase = .idle)
    (data : List Byte) (h : exec i (supplyData (encode i) data s) = .next s') :
    ∃ t', exec i (supplyData (encode i) data t) = .next t' ∧ Alike s' t' := by
  cases i with
  | rasterize | print =>
    exact alike_pixelOperation (s := { s with inMem := Memory.ofBytes data })
      (t := { t with inMem := Memory.ofBytes data }) hhost hs ht rfl h
  | encode =>
    exact alike_execEncode (s := { s with inMem := Memory.ofBytes data })
      (t := { t with inMem := Memory.ofBytes data }) hhost hs ht rfl h
  | reservedOp3 | thresh | pack | init | stdmode | lf =>
    cases h
    exact ⟨_, rfl, alike_of_idle hs ht hhost⟩
  | raster =>
    cases h
    exact ⟨_, rfl, alike_of_idle (by simpa using hs) (by simpa using ht)
      (by simpa [supplyData_host] using hhost)⟩

end

/-! ### A step and a run -/

theorem Alike.step_of_blockStep {s t u v s' : State} (h : Alike u v) (hs : step s = blockStep u)
    (ht : step t = blockStep v) (hstep : step s = .next s') :
    ∃ t', step t = .next t' ∧ Alike s' t' := by
  rw [hs] at hstep
  obtain ⟨t', hblock, halike⟩ := h.exists_blockStep (blockStep_inv hstep)
  exact ⟨t', ht.trans (blockStep_of hblock), halike⟩

theorem Alike.step_of_next {s t u v s' : State} (h : Alike u v) (hs : step s = .next u)
    (ht : step t = .next v) (hstep : step s = .next s') :
    ∃ t', step t = .next t' ∧ Alike s' t' := by
  rw [hs] at hstep
  cases hstep
  exact ⟨v, ht, h⟩

/-- Agreeing states make agreeing steps: the host's next move and the phase, which decide what kind of step it
is, are the same in both. -/
theorem Alike.exists_step {s t s' : State} (h : Alike s t) (hstep : step s = .next s') :
    ∃ t', step t = .next t' ∧ Alike s' t' := by
  have hp := h.phase
  cases hs : s.host with
  | nil => exact h.step_of_blockStep (step_of_nil hs) (step_of_nil (h.host ▸ hs)) hstep
  | cons m rest =>
    have ht : t.host = m :: rest := h.host ▸ hs
    have hrest := h.setHost rest
    have hreturn := alike_toIdle hrest.host
    cases m with
    | wait => exact hrest.step_of_blockStep (step_of_wait hs) (step_of_wait ht) hstep
    | reset =>
      exact hreturn.step_of_next
        (step_eq_toIdle_of_reset hs) (step_eq_toIdle_of_reset ht) hstep
    | acknowledge =>
      by_cases hdone : s.phase = .done
      · exact hreturn.step_of_next
          (step_of_acknowledge hdone hs) (step_of_acknowledge (hp ▸ hdone) ht) hstep
      · exact h.step_of_blockStep (step_of_acknowledge_early hdone hs)
          (step_of_acknowledge_early (hp ▸ hdone) ht) hstep
    | issue r data =>
      by_cases hidle : s.phase = .idle
      · have haccept := alike_offer hrest.host hidle (hp ▸ hidle) r data
        exact haccept.step_of_next (step_of_issue hidle hs) (step_of_issue (hp ▸ hidle) ht) hstep
      · exact hrest.step_of_blockStep (step_of_issue_busy hidle hs)
          (step_of_issue_busy (hp ▸ hidle) ht) hstep
    | operate e data =>
      by_cases hidle : s.phase = .idle
      · cases hdecode : decode e with
        | error d =>
          rw [step_of_operate_error hidle hs hdecode] at hstep
          cases hstep
        | ok i =>
          obtain rfl : encode i = e := encodeOfDecodeIsTheWord e i hdecode
          rw [step_of_operate hidle hs hdecode] at hstep
          rw [step_of_operate (hp ▸ hidle) ht hdecode]
          exact alike_exec hrest.host hidle (hp ▸ hidle) data hstep
      · exact hrest.step_of_blockStep (step_of_operate_busy hidle hs)
          (step_of_operate_busy (hp ▸ hidle) ht) hstep

/-- Agreeing states are observed to be the same after any number of steps. -/
theorem Alike.run_eq {s t : State} (h : Alike s t) (n : Nat) :
    observeOutcome (run n s) = observeOutcome (run n t) := by
  induction n generalizing s t with
  | zero => exact h.observe_eq
  | succ n ih =>
    cases hs : step s with
    | next s' =>
      obtain ⟨t', ht, halike⟩ := h.exists_step hs
      simp only [run, hs, ht]
      exact ih halike
    | fault r | refused r =>
      have hstops (t' : State) : step t ≠ .next t' := by
        intro ht
        obtain ⟨s', hs', -⟩ := h.symm.exists_step ht
        rw [hs] at hs'
        cases hs'
      cases ht : step t with
      | next t' => exact absurd ht (hstops t')
      | fault | refused =>
        simp only [run, hs, ht]
        rfl

/-- Settles O54: in IDLE only the moves to come decide. -/
theorem noHistoryIsKept : Obligations.NoHistoryIsKept := by
  intro s t n hs ht hhost
  exact (alike_of_idle hs ht hhost).run_eq n

end Sys2Proof.Machine

/-! PROOFS. The colours of luminance exactly 128 (O5) and the row THRESH (O1). -/

namespace Sys2Proof.Machine

/-- THRESH as a row of the table: its result stands in `k` (R90). -/
theorem exec_thresh (red green blue alpha : Byte) (s : State) :
    exec (.thresh red green blue alpha) s = .next { s with k := contribution red green blue alpha } := rfl

/-- Settles O1: the contribution is the alpha test, then the luminance test. -/
theorem threshWritesTheContribution : Obligations.ThreshWritesTheContribution := by
  intro red green blue alpha s
  rw [exec_thresh]
  split
  next h => rw [contribution_of_alpha_le h]
  next h => rw [contribution_of_le_alpha (by omega), scaledLuminance]

/-! ### Luminance 128 -/

/-- The nineteen colours of R97. -/
def exactColours : List (Nat × Nat × Nat) :=
  [(12, 175, 4), (15, 152, 223), (29, 165, 53), (46, 155, 102), (63, 145, 151),
   (80, 135, 200), (94, 148, 30), (97, 125, 249), (111, 138, 79), (128, 128, 128),
   (145, 118, 177), (159, 131, 7), (162, 108, 226), (176, 121, 56), (193, 111, 105),
   (210, 101, 154), (227, 91, 203), (241, 104, 33), (244, 81, 252)]

/-- The green level that goes with a red one: 722 is twice 361, and modulo 361 half the weight of green has the
inverse 138. -/
def exactGreen (red : Nat) : Nat := (233 * red + 267) % 361

/-- The blue level that makes up the rest. -/
def exactBlue (red : Nat) : Nat := (1280000 - 2126 * red - 7152 * exactGreen red) / 722

/-- Red decides the other two channels of a colour of luminance 128. -/
theorem green_blue_of_exact {red green blue : Nat} (hgreen : green < 256)
    (h : 2126 * red + 7152 * green + 722 * blue = 1280000) :
    green = exactGreen red ∧ blue = exactBlue red := by
  have hg : green = exactGreen red := by
    unfold exactGreen
    omega
  refine ⟨hg, ?_⟩
  rw [exactBlue, ← hg]
  omega

/-- The candidate of a red level is no colour of luminance 128, or one of the nineteen. -/
def candidateListed (red : Nat) : Bool :=
  !decide (2126 * red + 7152 * exactGreen red + 722 * exactBlue red = 1280000 ∧
    exactGreen red < 256 ∧ exactBlue red < 256) ||
  decide ((red, exactGreen red, exactBlue red) ∈ exactColours)

/-- Every candidate, the red levels written `16*i + j`. -/
theorem candidates_listed : ∀ i < 16, ∀ j < 16, candidateListed (16 * i + j) = true := by
  decide

theorem mem_exactColours {red : Nat} (hred : red < 256)
    (h : 2126 * red + 7152 * exactGreen red + 722 * exactBlue red = 1280000 ∧ exactGreen red < 256 ∧
      exactBlue red < 256) : (red, exactGreen red, exactBlue red) ∈ exactColours := by
  have hlisted := candidates_listed (red / 16) (by omega) (red % 16) (Nat.mod_lt _ (by decide))
  rw [Nat.div_add_mod, candidateListed, decide_eq_true h] at hlisted
  exact of_decide_eq_true hlisted

theorem exact_of_mem : ∀ c ∈ exactColours, 2126 * c.1 + 7152 * c.2.1 + 722 * c.2.2 = 1280000 := by
  decide

/-- Settles O5: of the candidates, one for each red level, nineteen are colours. -/
theorem exactlyNineteenColoursAtLuminance128 : Obligations.ExactlyNineteenColoursAtLuminance128 := by
  intro red green blue
  refine ⟨⟨fun h => ?_, exact_of_mem _⟩, fun h alpha => ?_⟩
  · obtain ⟨hgreen, hblue⟩ := green_blue_of_exact green.isLt h
    have hcolour := And.intro h (And.intro green.isLt blue.isLt)
    rw [scaledLuminance, hgreen, hblue] at hcolour
    rw [hgreen, hblue]
    exact mem_exactColours red.isLt hcolour
  · rw [← Bool.not_eq_true, contribution_iff, h]
    exact fun ⟨_, hlt⟩ => absurd hlt (lt_irrefl _)

end Sys2Proof.Machine

/-! PROOFS. The frames of the rows of the table (O13, O21), and the row PACK (O6). -/

namespace Sys2Proof.Machine

/-! ### The sub-blocks -/

/-- PACK as a row of the table is one emission (R100, R10). -/
theorem exec_pack (k0 k1 k2 k3 k4 k5 k6 k7 : Bool) (s : State) :
    exec (.pack k0 k1 k2 k3 k4 k5 k6 k7) s = .next (emit (pack8 k0 k1 k2 k3 k4 k5 k6 k7) s) := rfl

/-- Settles O6: the emitted byte is PACK8 of the contributions. -/
theorem packEmitsItsByte : Obligations.PackEmitsItsByte := by
  intro k0 k1 k2 k3 k4 k5 k6 k7 s
  exact ⟨_, _, exec_pack k0 k1 k2 k3 k4 k5 k6 k7 s, rfl, pack8_toNat k0 k1 k2 k3 k4 k5 k6 k7,
    Memory.read_write_same .., fun a ha => Memory.read_write_other _ _ ha⟩

/-- INIT, STDMODE, LF, PACK and RASTER each emit a byte string that is not empty (R10). -/
theorem exec_emits {i : Instr} (hi : i = .init ∨ i = .stdmode ∨ i = .lf ∨
      (∃ k0 k1 k2 k3 k4 k5 k6 k7, i = .pack k0 k1 k2 k3 k4 k5 k6 k7) ∨
      ∃ width height bitmap, i = .raster width height bitmap) (s : State) :
    ∃ vs, 0 < vs.length ∧ exec i s = .next (emitAll vs s) := by
  obtain rfl | rfl | rfl | ⟨k0, k1, k2, k3, k4, k5, k6, k7, rfl⟩ | ⟨width, height, bitmap, rfl⟩ := hi
  · exact ⟨initBytes, by decide, exec_init s⟩
  · exact ⟨stdmodeBytes, by decide, exec_stdmode s⟩
  · exact ⟨lfBytes, by decide, exec_lf s⟩
  · exact ⟨[_], Nat.one_pos, exec_pack k0 k1 k2 k3 k4 k5 k6 k7 s⟩
  · exact ⟨_, by simp, exec_raster width height bitmap s⟩

/-- Settles O13: the frame of an emission, and THRESH's one field. -/
theorem subBlockInstructionsFrame : Obligations.SubBlockInstructionsFrame := by
  intro s t
  refine ⟨fun i hi h => ?_, fun red green blue alpha h => ?_⟩
  · obtain ⟨vs, hvs, hexec⟩ := exec_emits hi s
    rw [hexec] at h
    cases h
    have hlen := emitAll_outLen vs s
    refine ⟨hlen.symm ▸ emitAll_frame vs s, by omega, fun a ha => emitAll_read_outside (by omega)⟩
  · cases h
    rfl

/-! ### The operations -/

/-- The frame of an operation that has ended: the request is latched, and neither IN, nor the host's moves, nor
the counter, nor a byte of OUT from the result's length on has changed. -/
structure OperationFrame (r : Request) (s t : State) : Prop where
  phase : t.phase = .done
  inMem : t.inMem = s.inMem
  host : t.host = s.host
  draws : t.draws = s.draws
  width : t.width = r.width
  len : t.len = r.len
  height : t.height = r.height
  op : t.op = r.op
  out : ∀ a, t.outLen ≤ a → t.outMem.read a = s.outMem.read a

theorem operationFrame_raise (e : Failure) (r : Request) (s : State) :
    OperationFrame r s (raise e (latch r s)) :=
  ⟨rfl, rfl, rfl, rfl, rfl, rfl, rfl, rfl, fun _ _ => rfl⟩

/-- A completion from what was latched, with the registers of a phase that has ended. -/
theorem operationFrame_complete {r : Request} {s u : State}
    (hu : u = { latch r s with h := u.h, npix := u.npix, p := u.p, idx := u.idx, k := u.k })
    (n : Nat) (bytes : List Byte) : OperationFrame r s (complete n (emitAll bytes u)) := by
  have hout : u.outLen = 0 := by rw [hu]; rfl
  have hmem : u.outMem = s.outMem := by rw [hu]; rfl
  have hkept (a : Nat) (ha : (complete n (emitAll bytes u)).outLen ≤ a) :
      (complete n (emitAll bytes u)).outMem.read a = s.outMem.read a := by
    rw [complete_outLen, emitAll_outLen] at ha
    rw [complete_outMem, emitAll_read_outside (.inr ha), hmem]
  rw [emitAll_eq, hu] at hkept ⊢
  exact ⟨rfl, rfl, rfl, rfl, rfl, rfl, rfl, rfl, hkept⟩

theorem pixelOperation_frame {f : List Byte → Nat → Except Failure (List Byte × Nat)} {r : Request}
    {s t : State} (hidle : s.phase = .idle) (h : pixelOperation f r s = .next t) :
    OperationFrame r s t := by
  obtain ⟨e, -, rfl⟩ | ⟨_, _, -, -, ⟨e, -, rfl⟩ | ⟨n, bytes, -, rfl⟩⟩ := pixelOperation_inv hidle h
  · exact operationFrame_raise e r s
  · exact operationFrame_raise e r s
  · exact operationFrame_complete rfl n bytes

theorem execEncode_frame {width len height : Nat} {s t : State} (hidle : s.phase = .idle)
    (h : execEncode width len height s = .next t) :
    OperationFrame ⟨1, width, len, height⟩ s t ∧ t.k = s.k := by
  obtain ⟨bitmap, -, rfl⟩ := execEncode_inv hidle h
  exact ⟨operationFrame_complete rfl height _, by simp⟩

/-- The frame as one statement, in the order of O21, with a further fact in its place. -/
theorem OperationFrame.and_fact {r : Request} {s t : State} {fact : Prop} (h : OperationFrame r s t)
    (hfact : fact) : t.phase = .done ∧ t.inMem = s.inMem ∧ t.host = s.host ∧ t.draws = s.draws ∧
      t.width = r.width ∧ t.len = r.len ∧ t.height = r.height ∧ t.op = r.op ∧ fact ∧
      ∀ a, t.outLen ≤ a → t.outMem.read a = s.outMem.read a := by
  obtain ⟨hphase, hin, hhost, hdraws, hwidth, hlen, hheight, hop, hout⟩ := h
  exact ⟨hphase, hin, hhost, hdraws, hwidth, hlen, hheight, hop, hfact, hout⟩

/-- Settles O21: each of the three has the frame of its request, and ENCODE leaves `k`. -/
theorem operationsFrame : Obligations.OperationsFrame := by
  intro width len height s t i hi hidle h
  rcases hi with rfl | rfl | rfl
  · exact (pixelOperation_frame hidle h).and_fact nofun
  · obtain ⟨hframe, hk⟩ := execEncode_frame hidle h
    exact hframe.and_fact fun _ => hk
  · exact (pixelOperation_frame hidle h).and_fact nofun

end Sys2Proof.Machine

/-! PROOFS. The operations: a malformed buffer (O20), absent input (O28), the completion of PRINT (O18), and PRINT
as ENCODE of RASTERIZE (O22). -/

namespace Sys2Proof.Machine

/-- Settles O20: the check answers MalformedPixelBuffer, and both operations end with its answer. -/
theorem malformedPixelBufferFails : Obligations.MalformedPixelBufferFails := by
  intro width len height s hidle hpos hmod hlen
  have hcheck : checkRequest width len = .error .malformedPixelBuffer :=
    checkRequest_malformed.2 ⟨hpos, hmod, hlen⟩
  exact ⟨pixelOperation_of_check_error (r := ⟨0, width, len, height⟩) hidle hcheck,
    pixelOperation_of_check_error (r := ⟨2, width, len, height⟩) hidle hcheck⟩

/-! ### Absent input -/

/-- A run of bytes one of which is absent is not read. -/
theorem Memory.readBytes_eq_none {m : Memory} {start n i : Nat} (hi : i < n)
    (h : m.read (start + i) = none) : m.readBytes start n = none := by
  refine Option.eq_none_iff_forall_ne_some.2 fun vs hvs => ?_
  have := Memory.readBytes_exists.1 ⟨vs, hvs⟩ i hi
  simp [h] at this

theorem readPixel_eq_none {m : Memory} {p i : Nat} (hi : i < 4) (h : m.read (4 * p + i) = none) :
    readPixel m p = none := by
  simp only [readPixel, Memory.readBytes_eq_none hi h]

theorem pixelOperation_of_absent {f : List Byte → Nat → Except Failure (List Byte × Nat)} {r : Request}
    {s : State} {n : Nat} (hidle : s.phase = .idle) (hcheck : checkRequest r.width r.len = .ok n)
    (hread : s.inMem.readBytes 0 r.len = none) : pixelOperation f r s = .fault .inputAbsent := by
  simp only [pixelOperation, readData, hidle, ne_eq, not_true_eq_false, if_false, hcheck, hread]

theorem execEncode_of_absent {width len height : Nat} {s : State} (hidle : s.phase = .idle)
    (hread : s.inMem.readBytes 0 len = none) :
    execEncode width len height s = .fault .inputAbsent := by
  simp only [execEncode, readData, hidle, ne_eq, not_true_eq_false, if_false, hread]

/-- Settles O28: where a byte is absent the read of the whole, of the pixel or of the byte answers none. -/
theorem absentInputStopsByName : Obligations.AbsentInputStopsByName := by
  refine ⟨fun width len height a s hidle ha habsent => ?operation,
    fun i s hphase hp hi habsent => ?pixel, fun s hphase hidx habsent => ?copy⟩
  case operation =>
    have hread : s.inMem.readBytes 0 len = none :=
      Memory.readBytes_eq_none ha (by rwa [Nat.zero_add])
    refine ⟨execEncode_of_absent hidle hread, fun hpos hmod hlen => ?_⟩
    have hcheck : checkRequest width len = .ok (len / (4 * width)) :=
      checkRequest_ok.2 ⟨hpos, hmod, (Nat.mul_div_cancel' (Nat.dvd_of_mod_eq_zero hlen)).symm⟩
    exact ⟨pixelOperation_of_absent (r := ⟨0, width, len, height⟩) hidle hcheck hread,
      pixelOperation_of_absent (r := ⟨2, width, len, height⟩) hidle hcheck hread⟩
  case pixel =>
    simp only [blockStep, hphase, pixStep, if_pos hp, readPixel_eq_none hi habsent]
  case copy =>
    simp only [blockStep, hphase, copyStep, if_pos hidx, habsent]

/-! ### PRINT -/

/-- Settles O18: the operation ends with the command of the bitmap in OUT. -/
theorem printCompletesWithTheCommand : Obligations.PrintCompletesWithTheCommand := by
  intro width len height n pixels s hidle hpos hmod hlen hread
  have hcheck : checkRequest width len = .ok n := checkRequest_ok.2 ⟨hpos, hmod, hlen⟩
  have hpixels : pixels.length = len := Memory.readBytes_length hread
  have hbytes : (bitmapOf pixels).length = len / 32 := by rw [bitmapOf_length, hpixels]
  refine ⟨_, bitmapOf pixels, exec_print_of_ok hidle hcheck hread height,
    rasterize_ok.2 ⟨hpixels.symm ▸ hcheck, rfl⟩, hbytes, ?_⟩
  rw [observe_complete_emitAll (by simp), encodeRasterCommand_length, hbytes, encodeRasterCommand_eq]

/-- A failure is not observed as a success. -/
theorem observe_raise_ne_success {e : Failure} {s : State} {n m : Nat} {bytes : List Byte} :
    observe (raise e s) ≠ some ⟨0, n, m, bytes⟩ := by
  rw [observe_raise]
  cases e <;> simp [Failure.code]

/-- A RASTERIZE observed as a success had a valid request and its pixels in IN, and its bitmap is observed. -/
theorem rasterize_of_observe {width len height n m : Nat} {bitmap : List Byte} {s t : State}
    (hidle : s.phase = .idle) (h : exec (.rasterize width len height) s = .next t)
    (hobserve : observe t = some ⟨0, n, m, bitmap⟩) :
    ∃ pixels, checkRequest width len = .ok n ∧ s.inMem.readBytes 0 len = some pixels ∧
      bitmap = bitmapOf pixels ∧ m = bitmap.length := by
  obtain ⟨e, -, rfl⟩ | ⟨_, pixels, -, hread, ⟨e, -, rfl⟩ | ⟨k, bytes, hok, rfl⟩⟩ :=
    pixelOperation_inv hidle h
  · exact absurd hobserve observe_raise_ne_success
  · exact absurd hobserve observe_raise_ne_success
  · obtain ⟨hcheck, rfl⟩ := rasterize_ok.1 hok
    rw [Memory.readBytes_length hread] at hcheck
    rw [observe_complete_emitAll (by simp)] at hobserve
    cases hobserve
    exact ⟨pixels, hcheck, hread, rfl, rfl⟩

/-- Settles O22: both end with the command of the bitmap of the same pixels. -/
theorem printIsEncodeOfRasterize : Obligations.PrintIsEncodeOfRasterize := by
  intro width len height n m bitmap s t u v w hs hu hrasterize hobserve hbitmap hencode hprint
  obtain ⟨pixels, hcheck, hread, rfl, -⟩ := rasterize_of_observe hs hrasterize hobserve
  rw [exec_encode_of_read hu hbitmap] at hencode
  rw [exec_print_of_ok hs hcheck hread] at hprint
  cases hencode
  cases hprint
  rw [observe_complete_emitAll (by simp), observe_complete_emitAll (by simp)]

end Sys2Proof.Machine
